-- ==== Sys2Proof/Word.lean ====
section
/-! DEFINITION. The word type of the core and its two views (00_scope.md rules R7, R13, R14). -/

namespace Sys2Proof

/-- A 32-bit word: a register, a data-memory word, an instruction word, a pc (R7, R14). Its `+` and `-` are modulo 2^32,
its `&&&` and `|||` bitwise (R14, D2). `v.toNat` is the spec's `u(v)`, its unsigned view, and `v.toInt` its `s(v)`, the
two's-complement signed view (R14). -/
abbrev Word := BitVec 32

/-- One byte of a word, as the memory list holds it. -/
abbrev Byte := BitVec 8

/-- A register index, the 5-bit port of the register file (R18, R68). -/
abbrev RegIdx := BitVec 5

end Sys2Proof
end

