-- ==== Sys2Proof/Syntax.lean ====
section
/-! DEFINITION. The thirteen instructions (00_scope.md R3, opcode_table.json) and the decoded record (30_encoding.md R60). -/

namespace Sys2Proof

/-- The thirteen mnemonics (R3), in the order of opcode_table.json. -/
inductive Mnemonic where
  | add | sub | and | or | slt | lw | addi | andi | ori | jalr | sw | beq | jal
deriving DecidableEq, Repr

/-- The five formats (R51, R52). -/
inductive Format where
  | R | I | S | SB | UJ
deriving DecidableEq, Repr

/-- The seven opcodes of the decoder's table (R51), named as the control table's rows (R69). -/
inductive Opcode where
  | rType | lw | iArith | sw | beq | jal | jalr
deriving DecidableEq, Repr

/-- An instruction with its operands. An immediate is the sign-extended 32-bit word that decoding makes (R53 to R56); the
offset of `beq` and `jal` is in bytes, already shifted (R55, R56). -/
inductive Instr where
  /-- `add rd, rs1, rs2` (R85). -/
  | add (rd rs1 rs2 : RegIdx)
  /-- `sub rd, rs1, rs2` (R86). -/
  | sub (rd rs1 rs2 : RegIdx)
  /-- `and rd, rs1, rs2` (R87). -/
  | and (rd rs1 rs2 : RegIdx)
  /-- `or rd, rs1, rs2` (R88). -/
  | or (rd rs1 rs2 : RegIdx)
  /-- `slt rd, rs1, rs2` (R89). -/
  | slt (rd rs1 rs2 : RegIdx)
  /-- `lw rd, imm(rs1)` (R93). -/
  | lw (rd rs1 : RegIdx) (imm : Word)
  /-- `addi rd, rs1, imm` (R90). -/
  | addi (rd rs1 : RegIdx) (imm : Word)
  /-- `andi rd, rs1, imm` (R91). -/
  | andi (rd rs1 : RegIdx) (imm : Word)
  /-- `ori rd, rs1, imm` (R92). -/
  | ori (rd rs1 : RegIdx) (imm : Word)
  /-- `jalr rd, imm(rs1)` (R97). -/
  | jalr (rd rs1 : RegIdx) (imm : Word)
  /-- `sw rs2, imm(rs1)` (R94). -/
  | sw (rs2 rs1 : RegIdx) (imm : Word)
  /-- `beq rs1, rs2, off` (R95). -/
  | beq (rs1 rs2 : RegIdx) (off : Word)
  /-- `jal rd, off` (R96). -/
  | jal (rd : RegIdx) (off : Word)
deriving DecidableEq, Repr

/-- The decoder's output (R60): only the fields of the instruction's own format are there. -/
structure Decoded where
  fmt : Format
  opcode : Opcode
  mnemonic : Mnemonic
  rd : Option RegIdx
  funct3 : Option (BitVec 3)
  rs1 : Option RegIdx
  rs2 : Option RegIdx
  funct7 : Option (BitVec 7)
  imm : Option Word
deriving DecidableEq, Repr

/-- Why the decoder rejects a word: the cases (a) to (e) of R61. -/
inductive DecodeReject where
  /-- Case (a): the opcode is not one of the seven. -/
  | unknownOpcode
  /-- Case (b): opcode 0110011 with (funct3, funct7) not one of the five R pairs. -/
  | unknownRKey
  /-- Case (c): an I opcode with a funct3 that has no entry. -/
  | unknownIKey
  /-- Case (d): opcode 0100011 with funct3 other than 010. -/
  | unknownSKey
  /-- Case (e): opcode 1100011 with funct3 other than 000. -/
  | unknownSBKey
deriving DecidableEq, Repr

end Sys2Proof
end

