-- ==== Sys2Proof/WellFormed.lean ====
section
/-! DEFINITION. Which terms of `Instr` are instructions of the core: each immediate in the range its format's field gives
(30_encoding.md R53 to R56). Register indices have exactly the five bits of their field, so they need no check.
`exec` gives a term that fails these checks the same meaning over its immediate; no word decodes to one (DESIGN CHOICE,
log 14). -/

namespace Sys2Proof

/-- The range of an I-type or S-type immediate, -2048 to 2047 (R53, R54). -/
def imm12Fits (imm : Word) : Bool := decide (-2048 ≤ imm.toInt) && decide (imm.toInt ≤ 2047)

/-- An SB-type offset: even, -4096 to 4094 (R55). -/
def offset13Fits (off : Word) : Bool :=
  decide (-4096 ≤ off.toInt) && decide (off.toInt ≤ 4094) && !off.getLsbD 0

/-- A UJ-type offset: even, -1048576 to 1048574 (R56). -/
def offset21Fits (off : Word) : Bool :=
  decide (-1048576 ≤ off.toInt) && decide (off.toInt ≤ 1048574) && !off.getLsbD 0

/-- The check of an instruction's immediate, by its format. R-type instructions have none (R57). -/
def Instr.wellFormed : Instr → Bool
  | .add _ _ _ => true
  | .sub _ _ _ => true
  | .and _ _ _ => true
  | .or _ _ _ => true
  | .slt _ _ _ => true
  | .lw _ _ imm => imm12Fits imm
  | .addi _ _ imm => imm12Fits imm
  | .andi _ _ imm => imm12Fits imm
  | .ori _ _ imm => imm12Fits imm
  | .jalr _ _ imm => imm12Fits imm
  | .sw _ _ imm => imm12Fits imm
  | .beq _ _ off => offset13Fits off
  | .jal _ off => offset21Fits off

/-- A well-formed instruction. -/
abbrev Instr.WellFormed (i : Instr) : Prop := i.wellFormed = true

end Sys2Proof
end

