-- ==== Sys2Proof/Decode.lean ====
section
/-! DEFINITION. The decoder, total on every 32-bit word and rejecting by name, and after it the encoder
(30_encoding.md R49 to R65). -/

namespace Sys2Proof

/-! ## Fields (R50) and immediates (R53 to R56) -/

/-- opcode, bits [6:0]. -/
def opcodeOf (w : Word) : BitVec 7 := w.extractLsb' 0 7
/-- rd, bits [11:7]. -/
def rdOf (w : Word) : RegIdx := w.extractLsb' 7 5
/-- funct3, bits [14:12]. -/
def funct3Of (w : Word) : BitVec 3 := w.extractLsb' 12 3
/-- rs1, bits [19:15]. -/
def rs1Of (w : Word) : RegIdx := w.extractLsb' 15 5
/-- rs2, bits [24:20]. -/
def rs2Of (w : Word) : RegIdx := w.extractLsb' 20 5
/-- funct7, bits [31:25]. -/
def funct7Of (w : Word) : BitVec 7 := w.extractLsb' 25 7

/-- R53: `sext_12(inst[31:20])`. -/
def immIOf (w : Word) : Word := (w.extractLsb' 20 12).signExtend 32

/-- R54: `sext_12({inst[31:25], inst[11:7]})`. -/
def immSOf (w : Word) : Word := (w.extractLsb' 25 7 ++ w.extractLsb' 7 5 : BitVec 12).signExtend 32

/-- R55: `sext_13({inst[31], inst[7], inst[30:25], inst[11:8], 0b0})`, the one shift of the branch offset. -/
def immSBOf (w : Word) : Word :=
  (w.extractLsb' 31 1 ++ w.extractLsb' 7 1 ++ w.extractLsb' 25 6 ++ w.extractLsb' 8 4 ++ 0#1 : BitVec 13).signExtend 32

/-- R56: `sext_21({inst[31], inst[19:12], inst[20], inst[30:21], 0b0})`. -/
def immUJOf (w : Word) : Word :=
  (w.extractLsb' 31 1 ++ w.extractLsb' 12 8 ++ w.extractLsb' 20 1 ++ w.extractLsb' 21 10 ++ 0#1 : BitVec 21).signExtend 32

/-! ## The opcode's seven values (R51) -/

/-- The seven bits of each opcode (R51). -/
def Opcode.code : Opcode → BitVec 7
  | .rType => 0b0110011#7
  | .lw => 0b0000011#7
  | .iArith => 0b0010011#7
  | .sw => 0b0100011#7
  | .beq => 0b1100011#7
  | .jal => 0b1101111#7
  | .jalr => 0b1100111#7

/-- Step 1 of decoding: which of the seven the bits are, if any (R59). -/
def opcodeFrom (bits : BitVec 7) : Option Opcode :=
  if bits = Opcode.code .rType then some .rType
  else if bits = Opcode.code .lw then some .lw
  else if bits = Opcode.code .iArith then some .iArith
  else if bits = Opcode.code .sw then some .sw
  else if bits = Opcode.code .beq then some .beq
  else if bits = Opcode.code .jal then some .jal
  else if bits = Opcode.code .jalr then some .jalr
  else none

/-! ## Step 2: the mnemonic tables (R59) -/

/-- The R table, key (funct3, funct7) (R59). -/
def decodeR (w : Word) : Except DecodeReject Instr :=
  if funct3Of w = 0b000#3 ∧ funct7Of w = 0b0000000#7 then .ok (.add (rdOf w) (rs1Of w) (rs2Of w))
  else if funct3Of w = 0b000#3 ∧ funct7Of w = 0b0100000#7 then .ok (.sub (rdOf w) (rs1Of w) (rs2Of w))
  else if funct3Of w = 0b111#3 ∧ funct7Of w = 0b0000000#7 then .ok (.and (rdOf w) (rs1Of w) (rs2Of w))
  else if funct3Of w = 0b110#3 ∧ funct7Of w = 0b0000000#7 then .ok (.or (rdOf w) (rs1Of w) (rs2Of w))
  else if funct3Of w = 0b010#3 ∧ funct7Of w = 0b0000000#7 then .ok (.slt (rdOf w) (rs1Of w) (rs2Of w))
  else .error .unknownRKey

/-- The I table at opcode 0000011 (R59). -/
def decodeLoad (w : Word) : Except DecodeReject Instr :=
  if funct3Of w = 0b010#3 then .ok (.lw (rdOf w) (rs1Of w) (immIOf w)) else .error .unknownIKey

/-- The I table at opcode 0010011 (R59). -/
def decodeIArith (w : Word) : Except DecodeReject Instr :=
  if funct3Of w = 0b000#3 then .ok (.addi (rdOf w) (rs1Of w) (immIOf w))
  else if funct3Of w = 0b111#3 then .ok (.andi (rdOf w) (rs1Of w) (immIOf w))
  else if funct3Of w = 0b110#3 then .ok (.ori (rdOf w) (rs1Of w) (immIOf w))
  else .error .unknownIKey

/-- The I table at opcode 1100111 (R59). -/
def decodeJalr (w : Word) : Except DecodeReject Instr :=
  if funct3Of w = 0b000#3 then .ok (.jalr (rdOf w) (rs1Of w) (immIOf w)) else .error .unknownIKey

/-- The S table (R59). -/
def decodeStore (w : Word) : Except DecodeReject Instr :=
  if funct3Of w = 0b010#3 then .ok (.sw (rs2Of w) (rs1Of w) (immSOf w)) else .error .unknownSKey

/-- The SB table (R59). -/
def decodeBranch (w : Word) : Except DecodeReject Instr :=
  if funct3Of w = 0b000#3 then .ok (.beq (rs1Of w) (rs2Of w) (immSBOf w)) else .error .unknownSBKey

/-- The decoder (R58, R59): a pure function of the word. -/
def decode (w : Word) : Except DecodeReject Instr :=
  match opcodeFrom (opcodeOf w) with
  | none => .error .unknownOpcode
  | some .rType => decodeR w
  | some .lw => decodeLoad w
  | some .iArith => decodeIArith w
  | some .sw => decodeStore w
  | some .beq => decodeBranch w
  | some .jal => .ok (.jal (rdOf w) (immUJOf w))
  | some .jalr => decodeJalr w

/-! ## The decoded record (R60) -/

/-- The record of an R-format instruction. It has no immediate (R57). -/
def recordR (mn : Mnemonic) (f3 : BitVec 3) (f7 : BitVec 7) (rd rs1 rs2 : RegIdx) : Decoded :=
  { fmt := .R, opcode := .rType, mnemonic := mn, rd := some rd, funct3 := some f3, rs1 := some rs1, rs2 := some rs2,
    funct7 := some f7, imm := none }

/-- The record of an I-format instruction. It has no funct7 (R60). -/
def recordI (op : Opcode) (mn : Mnemonic) (f3 : BitVec 3) (rd rs1 : RegIdx) (imm : Word) : Decoded :=
  { fmt := .I, opcode := op, mnemonic := mn, rd := some rd, funct3 := some f3, rs1 := some rs1, rs2 := none,
    funct7 := none, imm := some imm }

/-- The decoded record of each instruction (R60). -/
def Instr.record : Instr → Decoded
  | .add rd rs1 rs2 => recordR .add 0b000#3 0b0000000#7 rd rs1 rs2
  | .sub rd rs1 rs2 => recordR .sub 0b000#3 0b0100000#7 rd rs1 rs2
  | .and rd rs1 rs2 => recordR .and 0b111#3 0b0000000#7 rd rs1 rs2
  | .or rd rs1 rs2 => recordR .or 0b110#3 0b0000000#7 rd rs1 rs2
  | .slt rd rs1 rs2 => recordR .slt 0b010#3 0b0000000#7 rd rs1 rs2
  | .lw rd rs1 imm => recordI .lw .lw 0b010#3 rd rs1 imm
  | .addi rd rs1 imm => recordI .iArith .addi 0b000#3 rd rs1 imm
  | .andi rd rs1 imm => recordI .iArith .andi 0b111#3 rd rs1 imm
  | .ori rd rs1 imm => recordI .iArith .ori 0b110#3 rd rs1 imm
  | .jalr rd rs1 imm => recordI .jalr .jalr 0b000#3 rd rs1 imm
  | .sw rs2 rs1 imm =>
    { fmt := .S, opcode := .sw, mnemonic := .sw, rd := none, funct3 := some 0b010#3, rs1 := some rs1, rs2 := some rs2,
      funct7 := none, imm := some imm }
  | .beq rs1 rs2 off =>
    { fmt := .SB, opcode := .beq, mnemonic := .beq, rd := none, funct3 := some 0b000#3, rs1 := some rs1, rs2 := some rs2,
      funct7 := none, imm := some off }
  | .jal rd off =>
    { fmt := .UJ, opcode := .jal, mnemonic := .jal, rd := some rd, funct3 := none, rs1 := none, rs2 := none,
      funct7 := none, imm := some off }

/-- The instruction's mnemonic (R59). -/
def Instr.mnemonic (i : Instr) : Mnemonic := i.record.mnemonic

/-- The decoder block's output (R58, R60). -/
def decodeRecord (w : Word) : Except DecodeReject Decoded := (decode w).map Instr.record

/-! ## The encoder (R52, R64) -/

/-- R format: funct7, rs2, rs1, funct3, rd, opcode (R52). -/
def encodeR (f7 : BitVec 7) (f3 : BitVec 3) (rd rs1 rs2 : RegIdx) : Word :=
  f7 ++ rs2 ++ rs1 ++ f3 ++ rd ++ Opcode.code .rType

/-- I format: imm[11:0], rs1, funct3, rd, opcode (R52). -/
def encodeI (op : Opcode) (f3 : BitVec 3) (rd rs1 : RegIdx) (imm : Word) : Word :=
  imm.extractLsb' 0 12 ++ rs1 ++ f3 ++ rd ++ op.code

/-- S format: imm[11:5], rs2, rs1, funct3, imm[4:0], opcode (R52). -/
def encodeS (f3 : BitVec 3) (rs1 rs2 : RegIdx) (imm : Word) : Word :=
  imm.extractLsb' 5 7 ++ rs2 ++ rs1 ++ f3 ++ imm.extractLsb' 0 5 ++ Opcode.code .sw

/-- SB format: imm[12], imm[10:5], rs2, rs1, funct3, imm[4:1], imm[11], opcode (R52). Bit 0 is dropped (R64). -/
def encodeSB (f3 : BitVec 3) (rs1 rs2 : RegIdx) (off : Word) : Word :=
  off.extractLsb' 12 1 ++ off.extractLsb' 5 6 ++ rs2 ++ rs1 ++ f3 ++ off.extractLsb' 1 4 ++ off.extractLsb' 11 1
    ++ Opcode.code .beq

/-- UJ format: imm[20], imm[10:1], imm[11], imm[19:12], rd, opcode (R52). Bit 0 is dropped (R64). -/
def encodeUJ (rd : RegIdx) (off : Word) : Word :=
  off.extractLsb' 20 1 ++ off.extractLsb' 1 10 ++ off.extractLsb' 11 1 ++ off.extractLsb' 12 8 ++ rd ++ Opcode.code .jal

/-- The word of a well-formed instruction (R52, R64, R65). -/
def encode : Instr → Word
  | .add rd rs1 rs2 => encodeR 0b0000000#7 0b000#3 rd rs1 rs2
  | .sub rd rs1 rs2 => encodeR 0b0100000#7 0b000#3 rd rs1 rs2
  | .and rd rs1 rs2 => encodeR 0b0000000#7 0b111#3 rd rs1 rs2
  | .or rd rs1 rs2 => encodeR 0b0000000#7 0b110#3 rd rs1 rs2
  | .slt rd rs1 rs2 => encodeR 0b0000000#7 0b010#3 rd rs1 rs2
  | .lw rd rs1 imm => encodeI .lw 0b010#3 rd rs1 imm
  | .addi rd rs1 imm => encodeI .iArith 0b000#3 rd rs1 imm
  | .andi rd rs1 imm => encodeI .iArith 0b111#3 rd rs1 imm
  | .ori rd rs1 imm => encodeI .iArith 0b110#3 rd rs1 imm
  | .jalr rd rs1 imm => encodeI .jalr 0b000#3 rd rs1 imm
  | .sw rs2 rs1 imm => encodeS 0b010#3 rs1 rs2 imm
  | .beq rs1 rs2 off => encodeSB 0b000#3 rs1 rs2 off
  | .jal rd off => encodeUJ rd off

/-! ## The opcode table (R65, opcode_table.json) -/

/-- The bits that select each row (R65). -/
def Mnemonic.tableMask : Mnemonic → Word
  | .add | .sub | .and | .or | .slt => 0xFE00707F#32
  | .lw | .addi | .andi | .ori | .jalr | .sw | .beq => 0x0000707F#32
  | .jal => 0x0000007F#32

/-- The value each row's selecting bits have (R65 and the encoding line of R85 to R97). -/
def Mnemonic.tableMatch : Mnemonic → Word
  | .add => 0x00000033#32
  | .sub => 0x40000033#32
  | .and => 0x00007033#32
  | .or => 0x00006033#32
  | .slt => 0x00002033#32
  | .lw => 0x00002003#32
  | .addi => 0x00000013#32
  | .andi => 0x00007013#32
  | .ori => 0x00006013#32
  | .jalr => 0x00000067#32
  | .sw => 0x00002023#32
  | .beq => 0x00000063#32
  | .jal => 0x0000006F#32

/-- The word selects the row of the mnemonic (R65). -/
abbrev Mnemonic.Selects (m : Mnemonic) (w : Word) : Prop := w &&& m.tableMask = m.tableMatch

/-! ## Words as the host numbers them -/

/-- The 32-bit instruction whose bits are `w`, of which the low `nbits` count (log 12). -/
def wordOfBits (nbits w : Nat) : Word := BitVec.ofNat 32 (w % 2 ^ nbits)

/-- The instruction the decoder reads from the word with those bits, if it accepts it. -/
def decodeTableWord (nbits w : Nat) : Option Instr :=
  match decode (wordOfBits nbits w) with
  | .ok i => some i
  | .error _ => none

end Sys2Proof
end

