-- ==== Sys2Proof/Config.lean ====
section
/-! DEFINITION. What one implementation fixes, and the one free value (00_scope.md section 3; 93_implementation_defined.md). -/

namespace Sys2Proof.Config

/-- The largest MEM_WORDS the spec admits, 2^29 (R10, D6). -/
def maxMemWords : Nat := 2 ^ 29

/-- The largest PROG_LEN the spec admits, 2^29 - 1 (R11, D7). -/
def maxProgLen : Nat := 2 ^ 29 - 1

/-- DESIGN CHOICE (log 1): the MEM_WORDS that `State.reset` holds. The spec leaves MEM_WORDS open (R10); 64 is what its
test vectors take (95_test_vectors.md). The statements hold of every
size within the bound. -/
def resetMemWords : Nat := 64

/-- The reset vector (R12, R31, R41, D4). -/
def resetPc : Word := 0#32

/-- What a byte of data memory that the memory list does not name reads as: every DMEM word is 0 at reset (R31, D5). -/
def unlistedByte : Byte := 0#8

/-- FREE VALUE (DESIGN CHOICE of its form, log 7): the ALU result of `jal` in the cycle of the given number. jal has no ALU operands, and the spec
gives the result no value: "A model may give it any value" (R75, D12, U1). Only the trace record shows it (R84). -/
opaque jalAluResult : Nat → Word

end Sys2Proof.Config
end

