-- ==== Sys2Proof/Machine/State.lean ====
section
/-! DEFINITION. The architectural state (10_state.md R17 to R31), the reasons a host load can fail, and reset (R31, R114). -/

namespace Sys2Proof.Machine

/-- The run state (R24). -/
inductive RunState where
  | running
  | haltedNormal
  | haltedError
deriving DecidableEq, Repr

/-- The kinds of fatal error the core raises (R26, R98). Names only, no numeric codes (D20). -/
inductive ErrorKind where
  | decodeError
  | unalignedAccessError
  | outOfRangeAccessError
deriving DecidableEq, Repr

/-- The stage that raised an error (R26, R99). -/
inductive Stage where
  | fetch
  | decode
  | memory
deriving DecidableEq, Repr

/-- The error record (R26, R99). `raw` is none when the fetch itself failed. -/
structure ErrorRecord where
  kind : ErrorKind
  pc : Word
  raw : Option Word
  stage : Stage
deriving DecidableEq, Repr

/-- Data memory: (byte address, byte) cells, addresses strictly rising, none equal to what an unlisted address reads as.
The four bytes of the word at byte address 4k stand at 4k to 4k + 3, low byte first; the core cannot observe that order
(R40, D16; DESIGN CHOICE, safe, log 2). -/
abbrev Memory := List Host.Cell

/-- The persistent state of the core, the tuple of R17, and the parameter MEM_WORDS. -/
structure State where
  /-- X (R18). Slot 0 stands for x0 and is never read or written (R19, log 8). -/
  regs : Vector Word 32
  /-- The address of the current instruction (R23). -/
  pc : Word
  /-- DMEM (R21). -/
  mem : Memory
  /-- MEM_WORDS, the open parameter (R10, log 1). No step changes it. -/
  memWords : Nat
  /-- IMEM, the program (R22). Its length is PROG_LEN (R11). No step changes it. -/
  imem : List Word
  /-- The run state (R24). -/
  run : RunState
  /-- The cycle counter, an unbounded natural number (R25). -/
  count : Nat
  /-- The error record (R26). -/
  err : Option ErrorRecord
deriving DecidableEq, Repr

/-- The faults. No step of the machine ends in one: every error of the core has a next state that the spec gives
(R98 to R100, log 4). -/
inductive Fault where
  /-- MalformedImmediateError (R98, R112). Raised by the host's load `boot` when a program entry is no 32-bit word: the whole
  program is rejected before the first fetch. Safe: no state is made. -/
  | malformedImmediateError
deriving DecidableEq, Repr

/-- The refusals. Only the host's load `boot` answers one; no instruction's meaning does. -/
inductive Refusal where
  /-- An arm of `exec` with no meaning yet. None is left. Safe. -/
  | notModelled (mnemonic : String)
  /-- Raised by `boot`: MEM_WORDS above 2^29 (R10). Safe. -/
  | memWordsOutOfRange
  /-- Raised by `boot`: PROG_LEN above 2^29 - 1; "A longer program is refused" (R11, D7). Safe. -/
  | programTooLong
  /-- Raised by `boot`: a register-map entry with a key above 31 (R116), or a value that denotes no word (log 11). Safe. -/
  | registerMapEntry
  /-- Raised by `boot`: a memory-map entry whose key is not a multiple of 4 below 4 MEM_WORDS (R116), or a value that
  denotes no word (log 11). Safe. -/
  | memoryMapEntry
deriving DecidableEq, Repr

/-- Reset (R31, R114) of a core whose data memory has `memWords` words: the state before the host loads a program. -/
def State.resetWith (memWords : Nat) : State :=
  { regs := Vector.replicate 32 0#32
    pc := Config.resetPc
    mem := []
    memWords := memWords
    imem := []
    run := .running
    count := 0
    err := none }

/-- The machine right after reset (R31, R114). IMEM is what the host loads, so before the load it is empty (log 10).
DESIGN CHOICE: MEM_WORDS is 64 (log 1). -/
def State.reset : State := State.resetWith Config.resetMemWords

end Sys2Proof.Machine
end

