-- ==== Sys2Proof/Machine/Ops.lean ====
section
/-! DEFINITION. The named operations over registers and memories, fetch, retiring, halting, and raising a fatal error. -/

namespace Sys2Proof.Machine

/-! ## The register file (R18 to R20) -/

/-- Read port: x0 reads 0 always (R19). -/
def State.getReg (s : State) (r : RegIdx) : Word :=
  if r = 0#5 then 0#32 else s.regs[r.toNat]'(r.isLt)

/-- Write port: a write to x0 is discarded and changes no state (R19). -/
def State.setReg (s : State) (r : RegIdx) (v : Word) : State :=
  if r = 0#5 then s else { s with regs := s.regs.set r.toNat v r.isLt }

/-! ## Data memory as cells -/

/-- The canonical form: addresses strictly rising, no cell equal to what an unlisted address reads as. -/
abbrev Memory.wf (m : Memory) : Prop :=
  m.Pairwise (fun c d => c.1 < d.1) ∧ ∀ c ∈ m, c.2 ≠ Config.unlistedByte

/-- The byte at an address. -/
def Memory.readByte : Memory → Nat → Byte
  | [], _ => Config.unlistedByte
  | c :: m, a => if c.1 = a then c.2 else Memory.readByte m a

/-- The memory with no cell at the address, so that it reads as unlisted. -/
def Memory.eraseByte (m : Memory) (a : Nat) : Memory := m.filter (fun c => c.1 != a)

/-- A cell put in the place its address has among rising addresses. -/
def Memory.insertByte : Memory → Nat → Byte → Memory
  | [], a, v => [(a, v)]
  | c :: m, a, v => if a < c.1 then (a, v) :: c :: m else c :: Memory.insertByte m a v

/-- One byte written, the canonical form kept: what an unlisted address reads as is not listed. -/
def Memory.writeByte (m : Memory) (a : Nat) (v : Byte) : Memory :=
  if v = Config.unlistedByte then Memory.eraseByte m a else Memory.insertByte (Memory.eraseByte m a) a v

/-- The word whose four bytes start at byte address `a`, low byte first (log 2). -/
def Memory.readWord (m : Memory) (a : Nat) : Word :=
  Memory.readByte m (a + 3) ++ Memory.readByte m (a + 2) ++ Memory.readByte m (a + 1) ++ Memory.readByte m a

/-- A word stored as four bytes from byte address `a`, low byte first (log 2). -/
def Memory.writeWord (m : Memory) (a : Nat) (v : Word) : Memory :=
  Memory.writeByte
    (Memory.writeByte
      (Memory.writeByte
        (Memory.writeByte m a (v.extractLsb' 0 8))
        (a + 1) (v.extractLsb' 8 8))
      (a + 2) (v.extractLsb' 16 8))
    (a + 3) (v.extractLsb' 24 8)

/-! ## The load/store engine's accesses (R33 to R37) -/

/-- The checks of a data access, in their order: alignment (R35), then range (R36, R37). None when the access is made. -/
def State.accessError (s : State) (ea : Word) : Option ErrorKind :=
  if ea.extractLsb' 0 2 ≠ 0b00#2 then some .unalignedAccessError
  else if 4 * s.memWords ≤ ea.toNat then some .outOfRangeAccessError
  else none

/-- `MemRead(EA, 4)` (R33): the word, or the error of the check that failed. -/
def State.memRead (s : State) (ea : Word) : Except ErrorKind Word :=
  match s.accessError ea with
  | some k => .error k
  | none => .ok (s.mem.readWord ea.toNat)

/-- `MemWrite(EA, 4, v)` (R34): the state with the one word stored, or the error of the check that failed. -/
def State.memWrite (s : State) (ea : Word) (v : Word) : Except ErrorKind State :=
  match s.accessError ea with
  | some k => .error k
  | none => .ok { s with mem := s.mem.writeWord ea.toNat v }

/-! ## Fetch (R81) -/

/-- What the fetch of a cycle finds. -/
inductive FetchResult where
  /-- The instruction word at pc. -/
  | word (inst : Word)
  /-- pc is not a multiple of 4, or it is and has bit 31 set. -/
  | error (kind : ErrorKind)
  /-- pc is at or past the end of the program. -/
  | exhausted
deriving DecidableEq, Repr

/-- Fetch: alignment, then bit 31, then the end of the program, then `IMem(u(pc) / 4)` (R81). -/
def State.fetch (s : State) : FetchResult :=
  if s.pc.extractLsb' 0 2 ≠ 0b00#2 then .error .unalignedAccessError
  else if s.pc.getLsbD 31 = true then .error .outOfRangeAccessError
  else
    match s.imem[s.pc.toNat / 4]? with
    | some inst => .word inst
    | none => .exhausted

/-- The program `imem` with `inst` as its word `k` (log 12). Missing words before it are zero words. -/
def placeWord (imem : List Word) (k : Nat) (inst : Word) : List Word :=
  imem.take k ++ List.replicate (k - imem.length) 0#32 ++ inst :: imem.drop (k + 1)

/-! ## How a cycle ends -/

/-- The end of a cycle that retires: the next pc, and count + 1 (R79, R80, R83). -/
def State.retire (s : State) (nextPc : Word) : State := { s with pc := nextPc, count := s.count + 1 }

/-- `raise E(info)`: the core's one response to an error, fatal and precise (R99, R100). The error record is written with the
failing cycle's pc and run becomes HALTED_ERROR; nothing else changes. There is no handler and no return from it (R103). -/
def State.raiseError (s : State) (kind : ErrorKind) (raw : Option Word) (stage : Stage) : State :=
  { s with run := .haltedError, err := some { kind := kind, pc := s.pc, raw := raw, stage := stage } }

/-- `halt_normal`: run becomes HALTED_NORMAL; nothing else changes (R81, R120). -/
def State.haltNormal (s : State) : State := { s with run := .haltedNormal }

end Sys2Proof.Machine
end

