-- ==== Sys2Proof/Machine/Operands.lean ====
section
/-! DEFINITION. The operand forms: effective address, link value and targets. Every sum is modulo 2^32 (R14, D2). -/

namespace Sys2Proof.Machine

/-- `EA = x[rs1] + imm`, the one addressing mode of lw and sw (R33). -/
def State.effAddr (s : State) (rs1 : RegIdx) (imm : Word) : Word := s.getReg rs1 + imm

/-- `pc + 4`, the next address in sequence and the link value (R79, R80). -/
def State.pcPlus4 (s : State) : Word := s.pc + 4#32

/-- `pc + imm`, the target of beq and jal (R77). The offset is not scaled again (R55). -/
def State.pcTarget (s : State) (off : Word) : Word := s.pc + off

/-- `(x[rs1] + imm) & 0xFFFFFFFE`, the target of jalr: only bit 0 is cleared (R77, R97). -/
def State.regTarget (s : State) (rs1 : RegIdx) (imm : Word) : Word := (s.getReg rs1 + imm) &&& 0xFFFFFFFE#32

end Sys2Proof.Machine
end

