-- ==== Sys2Proof/Machine/ArithLogic.lean ====
section
/-! DEFINITION. The ALU (40_datapath.md R74) and the eight arithmetic and logic instructions (41_alu.md R85 to R92). -/

namespace Sys2Proof.Machine

/-- The five ALU operations (R72). -/
inductive AluCtl where
  | AND | OR | ADD | SUB | SLT
deriving DecidableEq, Repr

/-- The ALU's result (R74). -/
def alu (op : AluCtl) (a b : Word) : Word :=
  match op with
  | .ADD => a + b
  | .SUB => a - b
  | .AND => a &&& b
  | .OR => a ||| b
  | .SLT => if a.toInt < b.toInt then 0x00000001#32 else 0x00000000#32

/-- An instruction that writes one result and goes on at pc + 4. -/
def State.writeAndAdvance (s : State) (rd : RegIdx) (v : Word) : State := (s.setReg rd v).retire s.pcPlus4

/-- R85: `x[rd] <- x[rs1] + x[rs2]; pc <- pc + 4; retire`. -/
def execAdd (rd rs1 rs2 : RegIdx) (s : State) : Host.Outcome State Fault Refusal :=
  .next (s.writeAndAdvance rd (alu .ADD (s.getReg rs1) (s.getReg rs2)))

/-- R86: `x[rd] <- x[rs1] - x[rs2]; pc <- pc + 4; retire`. -/
def execSub (rd rs1 rs2 : RegIdx) (s : State) : Host.Outcome State Fault Refusal :=
  .next (s.writeAndAdvance rd (alu .SUB (s.getReg rs1) (s.getReg rs2)))

/-- R87: `x[rd] <- x[rs1] & x[rs2]; pc <- pc + 4; retire`. -/
def execAnd (rd rs1 rs2 : RegIdx) (s : State) : Host.Outcome State Fault Refusal :=
  .next (s.writeAndAdvance rd (alu .AND (s.getReg rs1) (s.getReg rs2)))

/-- R88: `x[rd] <- x[rs1] | x[rs2]; pc <- pc + 4; retire`. -/
def execOr (rd rs1 rs2 : RegIdx) (s : State) : Host.Outcome State Fault Refusal :=
  .next (s.writeAndAdvance rd (alu .OR (s.getReg rs1) (s.getReg rs2)))

/-- R89: `x[rd] <- (s(x[rs1]) < s(x[rs2])) ? 1 : 0; pc <- pc + 4; retire`. -/
def execSlt (rd rs1 rs2 : RegIdx) (s : State) : Host.Outcome State Fault Refusal :=
  .next (s.writeAndAdvance rd (alu .SLT (s.getReg rs1) (s.getReg rs2)))

/-- R90: `x[rd] <- x[rs1] + imm; pc <- pc + 4; retire`. -/
def execAddi (rd rs1 : RegIdx) (imm : Word) (s : State) : Host.Outcome State Fault Refusal :=
  .next (s.writeAndAdvance rd (alu .ADD (s.getReg rs1) imm))

/-- R91: `x[rd] <- x[rs1] & imm; pc <- pc + 4; retire`. -/
def execAndi (rd rs1 : RegIdx) (imm : Word) (s : State) : Host.Outcome State Fault Refusal :=
  .next (s.writeAndAdvance rd (alu .AND (s.getReg rs1) imm))

/-- R92: `x[rd] <- x[rs1] | imm; pc <- pc + 4; retire`. -/
def execOri (rd rs1 : RegIdx) (imm : Word) (s : State) : Host.Outcome State Fault Refusal :=
  .next (s.writeAndAdvance rd (alu .OR (s.getReg rs1) imm))

end Sys2Proof.Machine
end

