-- ==== Sys2Proof/Machine/Flags.lean ====
section
/-! DEFINITION. The one flag of the core: Zero, a value of the cycle and not state (10_state.md R27, 40_datapath.md R76). -/

namespace Sys2Proof.Machine

/-- `Zero <- (result == 0x00000000)` (R74, R76). -/
def zeroFlag (result : Word) : Bool := result == 0#32

end Sys2Proof.Machine
end

