-- ==== Sys2Proof/Machine/ControlTransfer.lean ====
section
/-! DEFINITION. beq, jal and jalr (43_control.md R95 to R97). No target is checked here; the next fetch classifies it (R81). -/

namespace Sys2Proof.Machine

/-- R95: `result <- x[rs1] - x[rs2]; pc <- Zero ? pc + off : pc + 4; retire`. -/
def execBeq (rs1 rs2 : RegIdx) (off : Word) (s : State) : Host.Outcome State Fault Refusal :=
  .next (s.retire (if zeroFlag (s.getReg rs1 - s.getReg rs2) then s.pcTarget off else s.pcPlus4))

/-- R96: `if rd != 0: x[rd] <- pc + 4; pc <- pc + off; retire`. -/
def execJal (rd : RegIdx) (off : Word) (s : State) : Host.Outcome State Fault Refusal :=
  .next ((s.setReg rd s.pcPlus4).retire (s.pcTarget off))

/-- R97: `target <- (x[rs1] + imm) & 0xFFFFFFFE` from the start-of-cycle x[rs1]; `if rd != 0: x[rd] <- pc + 4; pc <- target`. -/
def execJalr (rd rs1 : RegIdx) (imm : Word) (s : State) : Host.Outcome State Fault Refusal :=
  .next ((s.setReg rd s.pcPlus4).retire (s.regTarget rs1 imm))

end Sys2Proof.Machine
end

