-- ==== Sys2Proof/Machine/LoadStore.lean ====
section
/-! DEFINITION. lw and sw (42_loadstore.md R93, R94). The raw word of a MEMORY error is the instruction's own word, which is
its encoding, because encoding what was decoded gives the fetched word back (R64, R99; DEDUCED, log 6). -/

namespace Sys2Proof.Machine

/-- R93: the access and its checks happen whatever rd is; the base is read before rd is written. -/
def execLw (rd rs1 : RegIdx) (imm : Word) (s : State) : Host.Outcome State Fault Refusal :=
  match s.memRead (s.effAddr rs1 imm) with
  | .error kind => .next (s.raiseError kind (some (encode (.lw rd rs1 imm))) .memory)
  | .ok v => .next ((s.setReg rd v).retire s.pcPlus4)

/-- R94: `DMEM[u(EA) / 4] <- x[rs2]`. -/
def execSw (rs2 rs1 : RegIdx) (imm : Word) (s : State) : Host.Outcome State Fault Refusal :=
  match s.memWrite (s.effAddr rs1 imm) (s.getReg rs2) with
  | .error kind => .next (s.raiseError kind (some (encode (.sw rs2 rs1 imm))) .memory)
  | .ok t => .next (t.retire s.pcPlus4)

end Sys2Proof.Machine
end

