-- ==== Sys2Proof/Machine/Step.lean ====
section
/-! DEFINITION. One step of the Cycle Driver (40_datapath.md R81, R82; 60_exceptions.md R101, R102). -/

namespace Sys2Proof.Machine

/-- One cycle (R82). In a halted state a step changes nothing (R102, vector F3; DEDUCED, log 5). Every outcome is a next
state: an error ends the run in HALTED_ERROR (R100, log 4). -/
def step (s : State) : Host.Outcome State Fault Refusal :=
  match s.run with
  | .haltedNormal => .next s
  | .haltedError => .next s
  | .running =>
    match s.fetch with
    | .error kind => .next (s.raiseError kind none .fetch)
    | .exhausted => .next s.haltNormal
    | .word inst =>
      match decode inst with
      | .error _ => .next (s.raiseError .decodeError (some inst) .decode)
      | .ok i => exec i s

/-- `s` with the 32-bit instruction whose bits are `w` at the place the next fetch reads, IMEM[u(pc) / 4], and the run going
(log 12). Words the program lacks before that place are zero words. -/
def State.withFetchWord (s : State) (nbits w : Nat) : State :=
  { s with imem := placeWord s.imem (s.pc.toNat / 4) (wordOfBits nbits w), run := .running, err := none }

end Sys2Proof.Machine
end

