-- ==== Sys2Proof/Machine/Assembly.lean ====
section
/-! DEFINITION. Assembler operand syntax (30_encoding.md R66), ABI names (10_state.md R18) and pseudo-instructions (R67). No
hardware meaning (D24, log 16). -/

namespace Sys2Proof.Machine

/-- `x0` to `x31` (R66). -/
def regName (r : RegIdx) : String := "x" ++ toString r.toNat

/-- The ABI names in register order (R18); x8 is also called fp. -/
def abiNames : List String :=
  ["zero", "ra", "sp", "gp", "tp", "t0", "t1", "t2", "s0", "s1", "a0", "a1", "a2", "a3", "a4", "a5"] ++
  ["a6", "a7", "s2", "s3", "s4", "s5", "s6", "s7", "s8", "s9", "s10", "s11", "t3", "t4", "t5", "t6"]

/-- The register an assembler name denotes, `xN` or an ABI name (R18, R66). -/
def regOfName (name : String) : Option RegIdx :=
  if name = "fp" then some 8#5
  else
    ((List.range 32).find? fun n => regName (BitVec.ofNat 5 n) == name || abiNames[n]? == some name).map
      (BitVec.ofNat 5)

/-- An immediate in decimal (R66). -/
def immText (imm : Word) : String := toString imm.toInt

/-- `op rd, rs1, rs2`. -/
def asmThree (op a b c : String) : String := op ++ " " ++ a ++ ", " ++ b ++ ", " ++ c

/-- `op r, imm(rs1)`. -/
def asmBased (op r base : String) (imm : Word) : String := op ++ " " ++ r ++ ", " ++ immText imm ++ "(" ++ base ++ ")"

/-- The operand forms of R66. -/
def asmText : Instr → String
  | .add rd rs1 rs2 => asmThree "add" (regName rd) (regName rs1) (regName rs2)
  | .sub rd rs1 rs2 => asmThree "sub" (regName rd) (regName rs1) (regName rs2)
  | .and rd rs1 rs2 => asmThree "and" (regName rd) (regName rs1) (regName rs2)
  | .or rd rs1 rs2 => asmThree "or" (regName rd) (regName rs1) (regName rs2)
  | .slt rd rs1 rs2 => asmThree "slt" (regName rd) (regName rs1) (regName rs2)
  | .lw rd rs1 imm => asmBased "lw" (regName rd) (regName rs1) imm
  | .addi rd rs1 imm => asmThree "addi" (regName rd) (regName rs1) (immText imm)
  | .andi rd rs1 imm => asmThree "andi" (regName rd) (regName rs1) (immText imm)
  | .ori rd rs1 imm => asmThree "ori" (regName rd) (regName rs1) (immText imm)
  | .jalr rd rs1 imm => asmBased "jalr" (regName rd) (regName rs1) imm
  | .sw rs2 rs1 imm => asmBased "sw" (regName rs2) (regName rs1) imm
  | .beq rs1 rs2 off => asmThree "beq" (regName rs1) (regName rs2) (immText off)
  | .jal rd off => "jal " ++ regName rd ++ ", " ++ immText off

/-- The pseudo-instructions the spec admits (R67). -/
inductive Pseudo where
  | nop
  | mv (rd rs : RegIdx)
  | li (rd : RegIdx) (imm : Word)
  | neg (rd rs : RegIdx)
  | sltz (rd rs : RegIdx)
  | sgtz (rd rs : RegIdx)
  | sgt (rd rs rt : RegIdx)
  | beqz (rs : RegIdx) (off : Word)
  | j (off : Word)
  | jalLink (off : Word)
  | jr (rs : RegIdx)
  | jalrLink (rs : RegIdx)
  | ret
deriving DecidableEq, Repr

/-- Their expansions (R67). -/
def expandPseudo : Pseudo → Instr
  | .nop => .addi 0#5 0#5 0#32
  | .mv rd rs => .addi rd rs 0#32
  | .li rd imm => .addi rd 0#5 imm
  | .neg rd rs => .sub rd 0#5 rs
  | .sltz rd rs => .slt rd rs 0#5
  | .sgtz rd rs => .slt rd 0#5 rs
  | .sgt rd rs rt => .slt rd rt rs
  | .beqz rs off => .beq rs 0#5 off
  | .j off => .jal 0#5 off
  | .jalLink off => .jal 1#5 off
  | .jr rs => .jalr 0#5 rs 0#32
  | .jalrLink rs => .jalr 1#5 rs 0#32
  | .ret => .jalr 0#5 1#5 0#32

end Sys2Proof.Machine
end

