-- ==== Sys2Proof/Machine/HostInterface.lean ====
section
/-! DEFINITION. What the host does to the core and sees of it, outside the cycles: the start of a run (70_reset_and_hazards.md
R114 to R118), snapshots (60_exceptions.md R111) and the stop request (R105). No step calls anything here. -/

namespace Sys2Proof.Machine

/-- A value of an initial-state map denotes a word: 0 to 2^32 - 1, or a negative integer from -2^31 (R116). -/
def denotesWord (v : Int) : Bool := decide (-(2 ^ 31) ≤ v) && decide (v < 2 ^ 32)

/-- A register-map entry the host accepts: 0 ≤ i ≤ 31 and a word (R116). -/
def registerEntryOk (e : Nat × Int) : Bool := decide (e.1 ≤ 31) && denotesWord e.2

/-- A memory-map entry the host accepts: the key is a byte address, a multiple of 4 below 4 MEM_WORDS, and the value a word
(R116). -/
def memoryEntryOk (memWords : Nat) (e : Nat × Int) : Bool :=
  decide (e.1 % 4 = 0) && decide (e.1 < 4 * memWords) && denotesWord e.2

/-- Step (2) of R115: IMEM loaded whole. -/
def State.loadProgram (s : State) (prog : List Word) : State := { s with imem := prog }

/-- The register map applied, entry after entry (R116; DESIGN CHOICE for a repeated key, log 11); an entry for 0 is discarded, as every write to x0 is. A negative n denotes n + 2^32. -/
def State.applyRegisterMap (s : State) (m : List (Nat × Int)) : State :=
  m.foldl (fun t e => t.setReg (BitVec.ofNat 5 e.1) (BitVec.ofInt 32 e.2)) s

/-- The memory map applied, entry after entry (R116, log 11). -/
def State.applyMemoryMap (s : State) (m : List (Nat × Int)) : State :=
  { s with mem := m.foldl (fun t e => t.writeWord e.1 (BitVec.ofInt 32 e.2)) s.mem }

/-- Steps (1) to (3) of R115 in one host operation: reset, load IMEM, apply the initial-state maps once. It answers the state
cycle 1 begins in, or the reason the run does not start (R10, R11, R112, R116, R118). DESIGN CHOICE: the order of the
checks (log 15). -/
def boot (memWords : Nat) (prog : List Nat) (registerMap memoryMap : List (Nat × Int)) :
    Host.Outcome State Fault Refusal :=
  if Config.maxMemWords < memWords then .refused .memWordsOutOfRange
  else if prog.any (fun w => decide (2 ^ 32 ≤ w)) then .fault .malformedImmediateError
  else if Config.maxProgLen < prog.length then .refused .programTooLong
  else if !registerMap.all registerEntryOk then .refused .registerMapEntry
  else if !memoryMap.all (memoryEntryOk memWords) then .refused .memoryMapEntry
  else
    .next ((((State.resetWith memWords).loadProgram (prog.map (BitVec.ofNat 32))).applyRegisterMap registerMap).applyMemoryMap
      memoryMap)

/-- The register snapshot: index to value, zeros left out, in rising order (R111, log 13). -/
def registerSnapshot (s : State) : List (Nat × Word) :=
  (List.range 32).filterMap fun i =>
    if s.getReg (BitVec.ofNat 5 i) = 0#32 then none else some (i, s.getReg (BitVec.ofNat 5 i))

/-- The memory snapshot: byte address 4k to DMEM[k], zeros left out, in rising order
(R111, D15, log 13). -/
def memorySnapshot (s : State) : List (Nat × Word) :=
  (List.range s.memWords).filterMap fun k =>
    if s.mem.readWord (4 * k) = 0#32 then none else some (4 * k, s.mem.readWord (4 * k))

/-- The host's stop request, honoured between two cycles: it changes no state (R105, D23; DEDUCED, log 17). -/
def hostStop (s : State) : State := s

/-- A host reset, the only way out of a halted state (R102, R114); MEM_WORDS is fixed for the machine. -/
def hostReset (s : State) : State := State.resetWith s.memWords

end Sys2Proof.Machine
end

