-- ==== Sys2Proof/Machine/Datapath.lean ====
section
/-! DEFINITION. The datapath blocks of 40_datapath.md: control unit, ALU control resolver, operand choice, target unit, memory
stage, writeback, PC multiplexer, and the cycle made of them (R68 to R83). The meanings of `exec` are written from R85 to R97;
this file is the other description the spec gives of the same cycle, and the trace record reads its signals. -/

namespace Sys2Proof.Machine

/-! ## Control unit (R69 to R71) -/

/-- The ALUOp class, an enumeration with no bit encoding (R71, D13). -/
inductive AluOp where
  | ADDR | BRANCH | FUNCT
deriving DecidableEq, Repr

/-- The control-signal vector (R69, R71). -/
structure Control where
  regWrite : Bool
  memRead : Bool
  memWrite : Bool
  branch : Bool
  jump : Bool
  jumpReg : Bool
  linkReg : Bool
  aluSrc : Bool
  memtoReg : Bool
  aluOp : AluOp
deriving DecidableEq, Repr

/-- The control vector with nothing asserted, from which each row of R69 is written. -/
def controlNone (op : AluOp) : Control :=
  { regWrite := false, memRead := false, memWrite := false, branch := false, jump := false, jumpReg := false,
    linkReg := false, aluSrc := false, memtoReg := false, aluOp := op }

/-- The Control Unit: the rows of R69 with the classes of R71. jal's class is the spec's choice (D12). -/
def controlUnit : Opcode → Control
  | .rType => { controlNone .FUNCT with regWrite := true }
  | .lw => { controlNone .ADDR with regWrite := true, memRead := true, aluSrc := true, memtoReg := true }
  | .sw => { controlNone .ADDR with memWrite := true, aluSrc := true }
  | .iArith => { controlNone .FUNCT with regWrite := true, aluSrc := true }
  | .beq => { controlNone .BRANCH with branch := true }
  | .jal => { controlNone .ADDR with regWrite := true, jump := true, linkReg := true }
  | .jalr => { controlNone .ADDR with regWrite := true, jump := true, jumpReg := true, linkReg := true, aluSrc := true }

/-! ## ALU control resolver (R72, R73) -/

/-- The resolver of R72, total, with its documented fallback to ADD (U2). `f7` is none but for R-type. -/
def aluControl (op : AluOp) (f3 : BitVec 3) (f7 : Option (BitVec 7)) : AluCtl :=
  match op with
  | .ADDR => .ADD
  | .BRANCH => .SUB
  | .FUNCT =>
    if f3 = 0b000#3 ∧ f7 = some 0b0100000#7 then .SUB
    else if f3 = 0b000#3 then .ADD
    else if f3 = 0b111#3 then .AND
    else if f3 = 0b110#3 then .OR
    else if f3 = 0b010#3 then .SLT
    else .ADD

/-- The resolved operation of a decoded instruction. A record without funct3 (jal) has class ADDR, so the 0 put for it here
is not looked at. -/
def resolvedOp (d : Decoded) : AluCtl :=
  aluControl (controlUnit d.opcode).aluOp (d.funct3.getD 0#3) (if d.fmt = .R then d.funct7 else none)

/-! ## Execute (R75 to R77) -/

/-- The values of one cycle up to the memory stage (R28): none of them is state. -/
structure Signals where
  ctl : Control
  /-- The value of read port A, for the formats that have an rs1 (R20). -/
  portA : Option Word
  /-- The value of read port B, for the formats that have an rs2 (R20). -/
  portB : Option Word
  result : Word
  zero : Bool
  target : Option Word
deriving DecidableEq, Repr

/-- The second ALU operand: the immediate if ALUSrc, else x[rs2] (R75). -/
def operandB (d : Decoded) (s : State) : Option Word :=
  if (controlUnit d.opcode).aluSrc then d.imm else d.rs2.map s.getReg

/-- The ALU result of the cycle (R75). jal has no operands: its result is the free value of the cycle (U1, log 7). -/
def aluResult (d : Decoded) (s : State) : Word :=
  match d.rs1.map s.getReg, operandB d s with
  | some a, some b => alu (resolvedOp d) a b
  | _, _ => Config.jalAluResult (s.count + 1)

/-- The target unit (R77). -/
def targetOf (d : Decoded) (s : State) : Option Word :=
  let ctl := controlUnit d.opcode
  if ctl.branch then d.imm.map s.pcTarget
  else if ctl.jump then
    if ctl.jumpReg then d.rs1.bind (fun r => d.imm.map (s.regTarget r)) else d.imm.map s.pcTarget
  else none

/-- Decode and Execute of a cycle (R75 to R77). -/
def signals (d : Decoded) (s : State) : Signals :=
  { ctl := controlUnit d.opcode
    portA := d.rs1.map s.getReg
    portB := d.rs2.map s.getReg
    result := aluResult d s
    zero := zeroFlag (aluResult d s)
    target := targetOf d s }

/-! ## Memory, Writeback, PC Update (R78 to R80) -/

/-- What the memory stage did, as the trace shows it (R84). -/
inductive MemEffect where
  | none
  | read (ea : Word) (word : Word)
  | write (ea : Word) (word : Word)
deriving DecidableEq, Repr

/-- The memory stage (R78): its effect and the state with the store done, or the error. MemWrite is asserted for sw only, and
sw has an rs2, so the 0 put for a missing port B is not stored. -/
def memoryStage (g : Signals) (s : State) : Except ErrorKind (MemEffect × State) :=
  if g.ctl.memRead then (s.memRead g.result).map (fun v => (.read g.result v, s))
  else if g.ctl.memWrite then
    (s.memWrite g.result (g.portB.getD 0#32)).map (fun t => (.write g.result (g.portB.getD 0#32), t))
  else .ok (.none, s)

/-- The value MemtoReg selects: the word read, else the ALU result (R79). -/
def writebackValue (g : Signals) (e : MemEffect) : Word :=
  match g.ctl.memtoReg, e with
  | true, .read _ w => w
  | _, _ => g.result

/-- The register write of Writeback, if any (R79): LinkReg before RegWrite, and never register 0. -/
def writebackOf (d : Decoded) (g : Signals) (e : MemEffect) (s : State) : Option (RegIdx × Word) :=
  match d.rd with
  | none => none
  | some rd =>
    if g.ctl.linkReg then (if rd ≠ 0#5 then some (rd, s.pcPlus4) else none)
    else if g.ctl.regWrite ∧ rd ≠ 0#5 then some (rd, writebackValue g e)
    else none

/-- The PC multiplexer (R80). A target is there whenever Branch or Jump is (R77). -/
def nextPcOf (g : Signals) (s : State) : Word :=
  if (g.ctl.branch && g.zero) || g.ctl.jump then g.target.getD s.pcPlus4 else s.pcPlus4

/-- The write port (R20). -/
def applyWriteback (w : Option (RegIdx × Word)) (s : State) : State :=
  match w with
  | none => s
  | some (rd, v) => s.setReg rd v

/-- The cycle of a decoded instruction whose word is `raw`, from Execute to PC Update, as the blocks make it (R82, R83). -/
def datapathCycle (d : Decoded) (raw : Word) (s : State) : State :=
  let g := signals d s
  match memoryStage g s with
  | .error kind => s.raiseError kind (some raw) .memory
  | .ok (e, t) => (applyWriteback (writebackOf d g e s) t).retire (nextPcOf g s)

end Sys2Proof.Machine
end

