-- ==== Sys2Proof/Machine/Trace.lean ====
section
/-! DEFINITION. The trace record of a retired cycle (40_datapath.md R84): an output, not state (log 9). -/

namespace Sys2Proof.Machine

/-- The fields of R84. -/
structure TraceRecord where
  /-- count after its increment. -/
  cycle : Nat
  raw : Word
  mnemonic : Mnemonic
  control : Control
  /-- For jal the free value of the cycle (log 7). -/
  aluResult : Word
  memEffect : MemEffect
  /-- The register written with its new value; a discarded write to x0 is none. -/
  regWritten : Option (RegIdx × Word)
  /-- The resulting pc. -/
  pc : Word
deriving DecidableEq, Repr

/-- The record the cycle of a decoded instruction emits, none if its memory stage raises an error (R84, R100). -/
def recordTrace (d : Decoded) (raw : Word) (s : State) : Option TraceRecord :=
  let g := signals d s
  match memoryStage g s with
  | .error _ => none
  | .ok (e, _) =>
    some
      { cycle := s.count + 1
        raw := raw
        mnemonic := d.mnemonic
        control := g.ctl
        aluResult := g.result
        memEffect := e
        regWritten := writebackOf d g e s
        pc := nextPcOf g s }

/-- The record the step from `s` emits: one for a cycle that retires, none for a cycle that halts or faults, and none in a
halted state (R84, D21). -/
def traceOf (s : State) : Option TraceRecord :=
  match s.run with
  | .haltedNormal => none
  | .haltedError => none
  | .running =>
    match s.fetch with
    | .error _ => none
    | .exhausted => none
    | .word inst =>
      match decode inst with
      | .error _ => none
      | .ok i => recordTrace i.record inst s

/-- The records of `n` cycles, in order: what the host's logger sees of a run it stops after `n` cycles (R84, R105). -/
def traceRun : Nat → State → List TraceRecord
  | 0, _ => []
  | n + 1, s =>
    match step s with
    | .next t => (traceOf s).toList ++ traceRun n t
    | .fault _ => []
    | .refused _ => []

end Sys2Proof.Machine
end

