-- ==== Sys2Proof/Safety.lean ====
section
/-! DEFINITION. The terms the statements use: the state invariant, what a step leaves unchanged, and the end of a run. -/

namespace Sys2Proof.Machine

/-- The byte address `a` is one of the four of the word that begins at `ea` (R34). -/
def InWord (ea : Word) (a : Nat) : Prop := ea.toNat ≤ a ∧ a < ea.toNat + 4

/-- An access that passes the checks of R35 and R36. -/
abbrev State.Accessible (s : State) (ea : Word) : Prop := ea.toNat % 4 = 0 ∧ ea.toNat < 4 * s.memWords

/-- A pc that the fetch checks admit: a multiple of 4 with bit 31 clear (R81). -/
abbrev FetchablePc (pc : Word) : Prop := pc.toNat % 4 = 0 ∧ pc.toNat < 2 ^ 31

/-- A run has ended when run is not RUNNING (R120). -/
abbrev State.Ended (s : State) : Prop := s.run ≠ .running

/-- The components of the state that no instruction changes: the run state, the error record, the program and MEM_WORDS. -/
def SameControl (s t : State) : Prop :=
  t.run = s.run ∧ t.err = s.err ∧ t.imem = s.imem ∧ t.memWords = s.memWords

/-- Every byte of data memory reads as before. -/
def SameMemory (s t : State) : Prop := ∀ a, t.mem.readByte a = s.mem.readByte a

/-- Every register reads as before. -/
def SameRegs (s t : State) : Prop := ∀ r, t.getReg r = s.getReg r

/-- Register `rd` reads `v`, unless it is x0, which reads 0; every other register reads as before. -/
def OnlyRegWritten (s t : State) (rd : RegIdx) (v : Word) : Prop :=
  t.getReg rd = (if rd = 0#5 then 0#32 else v) ∧ ∀ r, r ≠ rd → t.getReg r = s.getReg r

/-- The state `t` that an instruction leaves which writes `v` to `rd`, stores nothing, goes on at `next` and retires: its
result and its whole frame. -/
def RetiresWriting (s t : State) (rd : RegIdx) (v next : Word) : Prop :=
  OnlyRegWritten s t rd v ∧ SameMemory s t ∧ SameControl s t ∧ t.pc = next ∧ t.count = s.count + 1

/-- `t` is `s` in HALTED_ERROR with the given record, and nothing else changed (R100). -/
def FailsWith (s t : State) (kind : ErrorKind) (raw : Option Word) (stage : Stage) : Prop :=
  t = { s with run := .haltedError, err := some { kind := kind, pc := s.pc, raw := raw, stage := stage } }

/-- The next step of `s` runs the instruction `i`, whose word is `w`: the run goes on, fetch finds `w` at pc, and `w` decodes
to `i` (R81, R82). -/
def RunsNext (s : State) (w : Word) (i : Instr) : Prop :=
  s.run = .running ∧ FetchablePc s.pc ∧ s.imem[s.pc.toNat / 4]? = some w ∧ decode w = .ok i

/-- The value of the word at `ea` after the cycle of a trace record, where it was `v` before: what the cycle stored there, if
it stored there (R34, R84). -/
def storedBy (ea v : Word) (r : TraceRecord) : Word :=
  match r.memEffect with
  | .none => v
  | .read _ _ => v
  | .write a w => if a = ea then w else v

/-- The value the last of the records' stores to `ea` wrote, in their order; `v` if none stored there (R43). -/
def lastStored (ea v : Word) (records : List TraceRecord) : Word := records.foldl (storedBy ea) v

/-- No word of the decoder's space: a DecodeError (R61). -/
def Rejected (w : Word) : Prop := ∃ why, decode w = .error why

/-- The invariant of the core's states:
the data memory is in its canonical form and names no byte outside DMEM (R21);
the storage of x0 is 0 (R19);
MEM_WORDS and PROG_LEN are within their bounds (R10, R11);
pc is even, since every target is (R55, R56, R77);
err is set exactly when run is HALTED_ERROR, with the pc of the failing cycle (R26, R100);
and a normal halt stands at a fetchable pc at or past the end of the program (R120). -/
structure State.Inv (s : State) : Prop where
  memWf : s.mem.wf
  memInRange : ∀ c ∈ s.mem, c.1 < 4 * s.memWords
  x0Slot : s.regs[0] = 0#32
  memWordsBound : s.memWords ≤ Config.maxMemWords
  progLenBound : s.imem.length ≤ Config.maxProgLen
  pcEven : s.pc.toNat % 2 = 0
  errIff : s.err.isSome = true ↔ s.run = .haltedError
  errPc : ∀ e, s.err = some e → e.pc = s.pc
  normalHalt : s.run = .haltedNormal → FetchablePc s.pc ∧ 4 * s.imem.length ≤ s.pc.toNat

end Sys2Proof.Machine
end

