-- ==== Sys2Proof/Certificates/Slice0/Obligations.lean ====
section
/-! DEFINITION. The statements for the provers. Each is about every word, instruction or state it quantifies over; states that
no run reaches are in unless a premise says otherwise. -/

open Sys2Proof
open Sys2Proof.Machine

/-! ## Encoding and decoding -/

/-- Words of the spec's examples and vectors, one for each instruction (30_encoding.md, 41_alu.md to 43_control.md). -/
def Obligations.SampleWordsDecode : Prop :=
  decode 0x002081B3#32 = .ok (.add 3#5 1#5 2#5) ∧ decode 0x402081B3#32 = .ok (.sub 3#5 1#5 2#5) ∧
  decode 0x0020F1B3#32 = .ok (.and 3#5 1#5 2#5) ∧ decode 0x0020E1B3#32 = .ok (.or 3#5 1#5 2#5) ∧
  decode 0x0020A1B3#32 = .ok (.slt 3#5 1#5 2#5) ∧ decode 0x00052603#32 = .ok (.lw 12#5 10#5 0#32) ∧
  decode 0xFFF00293#32 = .ok (.addi 5#5 0#5 0xFFFFFFFF#32) ∧ decode 0x0F00F193#32 = .ok (.andi 3#5 1#5 0xF0#32) ∧
  decode 0x8000E193#32 = .ok (.ori 3#5 1#5 0xFFFFF800#32) ∧ decode 0x000100E7#32 = .ok (.jalr 1#5 2#5 0#32) ∧
  decode 0xFE512E23#32 = .ok (.sw 5#5 2#5 0xFFFFFFFC#32) ∧ decode 0xFE208CE3#32 = .ok (.beq 1#5 2#5 0xFFFFFFF8#32) ∧
  decode 0xFF5FF06F#32 = .ok (.jal 0#5 0xFFFFFFF4#32)

/-- Decode and encode agree: every well-formed instruction, with every operand value its format admits, is read back from its
own word. -/
def Obligations.DecodeOfEncode : Prop := ∀ i : Instr, i.WellFormed → decode (encode i) = .ok i

/-- R64: re-encoding what was decoded gives the word back. Its two consequences are the spec's own inference ("[derived: from
rule R52]"): the forced bit 0 of a branch or jump offset is dropped, and decoding is injective on accepted words. -/
def Obligations.EncodeOfDecode : Prop :=
  (∀ w i, decode w = .ok i → encode i = w) ∧
  (∀ rs1 rs2 off, encode (.beq rs1 rs2 (off ||| 1#32)) = encode (.beq rs1 rs2 off)) ∧
  (∀ rd off, encode (.jal rd (off ||| 1#32)) = encode (.jal rd off)) ∧
  (∀ w w' i, decode w = .ok i → decode w' = .ok i → w = w')

/-- R53: the I-type immediate is bits 31:20 sign-extended, with its range and the spec's example. -/
def Obligations.ImmediateOfIFormat : Prop :=
  (∀ w d, decodeRecord w = .ok d → d.fmt = .I →
    ∃ imm, d.imm = some imm ∧ (∀ k < 12, imm.getLsbD k = w.getLsbD (20 + k)) ∧
      (∀ k, 12 ≤ k → k < 32 → imm.getLsbD k = w.getLsbD 31) ∧ -2048 ≤ imm.toInt ∧ imm.toInt ≤ 2047) ∧
  (∀ w : Word, w.extractLsb' 20 12 = 0b111111111111#12 → immIOf w = 0xFFFFFFFF#32)

/-- R54: the S-type immediate is {inst[31:25], inst[11:7]} sign-extended, with its range. -/
def Obligations.ImmediateOfSFormat : Prop :=
  ∀ w d, decodeRecord w = .ok d → d.fmt = .S →
    ∃ imm, d.imm = some imm ∧ (∀ k < 5, imm.getLsbD k = w.getLsbD (7 + k)) ∧
      (∀ k, 5 ≤ k → k < 12 → imm.getLsbD k = w.getLsbD (20 + k)) ∧
      (∀ k, 12 ≤ k → k < 32 → imm.getLsbD k = w.getLsbD 31) ∧ -2048 ≤ imm.toInt ∧ imm.toInt ≤ 2047

/-- R55: the SB-type immediate is {inst[31], inst[7], inst[30:25], inst[11:8], 0} sign-extended: even, with its range; Execute
adds it to pc as it stands. -/
def Obligations.ImmediateOfSBFormat : Prop :=
  (∀ w d, decodeRecord w = .ok d → d.fmt = .SB →
    ∃ imm, d.imm = some imm ∧ imm.getLsbD 0 = false ∧ (∀ k, 1 ≤ k → k < 5 → imm.getLsbD k = w.getLsbD (7 + k)) ∧
      (∀ k, 5 ≤ k → k < 11 → imm.getLsbD k = w.getLsbD (20 + k)) ∧ imm.getLsbD 11 = w.getLsbD 7 ∧
      (∀ k, 12 ≤ k → k < 32 → imm.getLsbD k = w.getLsbD 31) ∧ imm.toInt % 2 = 0 ∧ -4096 ≤ imm.toInt ∧ imm.toInt ≤ 4094) ∧
  (∀ rs1 rs2 off s, s.getReg rs1 = s.getReg rs2 → ∃ t, exec (.beq rs1 rs2 off) s = .next t ∧ t.pc = s.pc + off)

/-- R56: the UJ-type immediate is {inst[31], inst[19:12], inst[20], inst[30:21], 0} sign-extended: even, with its range; Execute
adds it to pc as it stands. -/
def Obligations.ImmediateOfUJFormat : Prop :=
  (∀ w d, decodeRecord w = .ok d → d.fmt = .UJ →
    ∃ imm, d.imm = some imm ∧ imm.getLsbD 0 = false ∧ (∀ k, 1 ≤ k → k < 11 → imm.getLsbD k = w.getLsbD (20 + k)) ∧
      imm.getLsbD 11 = w.getLsbD 20 ∧ (∀ k, 12 ≤ k → k < 20 → imm.getLsbD k = w.getLsbD k) ∧
      (∀ k, 20 ≤ k → k < 32 → imm.getLsbD k = w.getLsbD 31) ∧ imm.toInt % 2 = 0 ∧ -1048576 ≤ imm.toInt ∧ imm.toInt ≤ 1048574) ∧
  (∀ rd off s, ∃ t, exec (.jal rd off) s = .next t ∧ t.pc = s.pc + off)

/-- R50, R57, R60: which fields the decoded record of each format holds, and the bits each of them is. -/
def Obligations.DecodedRecordFields : Prop :=
  ∀ w d, decodeRecord w = .ok d →
    d.opcode.code = w.extractLsb' 0 7 ∧ d.mnemonic.Selects w ∧
    (d.fmt = .R → d.rd = some (w.extractLsb' 7 5) ∧ d.funct3 = some (w.extractLsb' 12 3) ∧ d.rs1 = some (w.extractLsb' 15 5) ∧
      d.rs2 = some (w.extractLsb' 20 5) ∧ d.funct7 = some (w.extractLsb' 25 7) ∧ d.imm = none) ∧
    (d.fmt = .I → d.rd = some (w.extractLsb' 7 5) ∧ d.funct3 = some (w.extractLsb' 12 3) ∧ d.rs1 = some (w.extractLsb' 15 5) ∧
      d.rs2 = none ∧ d.funct7 = none ∧ d.imm = some (immIOf w)) ∧
    (d.fmt = .S → d.rd = none ∧ d.funct3 = some (w.extractLsb' 12 3) ∧ d.rs1 = some (w.extractLsb' 15 5) ∧
      d.rs2 = some (w.extractLsb' 20 5) ∧ d.funct7 = none ∧ d.imm = some (immSOf w)) ∧
    (d.fmt = .SB → d.rd = none ∧ d.funct3 = some (w.extractLsb' 12 3) ∧ d.rs1 = some (w.extractLsb' 15 5) ∧
      d.rs2 = some (w.extractLsb' 20 5) ∧ d.funct7 = none ∧ d.imm = some (immSBOf w)) ∧
    (d.fmt = .UJ → d.rd = some (w.extractLsb' 7 5) ∧ d.funct3 = none ∧ d.rs1 = none ∧ d.rs2 = none ∧ d.funct7 = none ∧
      d.imm = some (immUJOf w))

/-- R61: the DecodeError space, case by case. -/
def Obligations.DecodeErrorSpace : Prop :=
  (∀ w, decode w = .error .unknownOpcode ↔
    opcodeOf w ∉ [0b0110011#7, 0b0000011#7, 0b0010011#7, 0b0100011#7, 0b1100011#7, 0b1101111#7, 0b1100111#7]) ∧
  (∀ w, decode w = .error .unknownRKey ↔ opcodeOf w = 0b0110011#7 ∧
    (funct3Of w, funct7Of w) ∉ [(0b000#3, 0b0000000#7), (0b000#3, 0b0100000#7), (0b111#3, 0b0000000#7),
      (0b110#3, 0b0000000#7), (0b010#3, 0b0000000#7)]) ∧
  (∀ w, decode w = .error .unknownIKey ↔
    (opcodeOf w = 0b0000011#7 ∧ funct3Of w ≠ 0b010#3) ∨
    (opcodeOf w = 0b0010011#7 ∧ funct3Of w ∉ [0b000#3, 0b111#3, 0b110#3]) ∨
    (opcodeOf w = 0b1100111#7 ∧ funct3Of w ≠ 0b000#3)) ∧
  (∀ w, decode w = .error .unknownSKey ↔ opcodeOf w = 0b0100011#7 ∧ funct3Of w ≠ 0b010#3) ∧
  (∀ w, decode w = .error .unknownSBKey ↔ opcodeOf w = 0b1100011#7 ∧ funct3Of w ≠ 0b000#3) ∧
  (∀ w : Word, w.extractLsb' 0 2 ≠ 0b11#2 → decode w = .error .unknownOpcode) ∧
  decode 0x00000000#32 = .error .unknownOpcode

/-- R62: the RISC-V base encodings that are DecodeErrors here. -/
def Obligations.OtherRiscvEncodingsRejected : Prop :=
  (∀ w, opcodeOf w ∈ [0b0110111#7, 0b0010111#7, 0b0001111#7, 0b1110011#7, 0b0101111#7] → Rejected w) ∧
  (∀ w, opcodeOf w = 0b1100011#7 → funct3Of w ∈ [0b001#3, 0b100#3, 0b101#3, 0b110#3, 0b111#3] → Rejected w) ∧
  (∀ w, opcodeOf w = 0b0000011#7 → funct3Of w ∈ [0b000#3, 0b001#3, 0b100#3, 0b101#3] → Rejected w) ∧
  (∀ w, opcodeOf w = 0b0100011#7 → funct3Of w ∈ [0b000#3, 0b001#3] → Rejected w) ∧
  (∀ w, opcodeOf w = 0b0010011#7 → funct3Of w ∈ [0b010#3, 0b011#3, 0b100#3, 0b001#3, 0b101#3] → Rejected w) ∧
  (∀ w, opcodeOf w = 0b0110011#7 → funct3Of w ∈ [0b001#3, 0b011#3, 0b100#3, 0b101#3] → Rejected w) ∧
  (∀ w, opcodeOf w = 0b0110011#7 → funct7Of w = 0b0000001#7 → Rejected w) ∧
  (∀ w, opcodeOf w = 0b0110011#7 → funct3Of w ∈ [0b111#3, 0b110#3, 0b010#3] → funct7Of w = 0b0100000#7 → Rejected w) ∧
  (∀ w, opcodeOf w = 0b1100111#7 → funct3Of w ≠ 0b000#3 → Rejected w)

/-- R65: a word is the instruction of a table row exactly when the row's selecting bits say so, and it is of no second row. -/
def Obligations.TableRowsSelect : Prop :=
  (∀ m w, (∃ i, decode w = .ok i ∧ i.mnemonic = m) ↔ m.Selects w) ∧
  (∀ m m' w, Mnemonic.Selects m w → Mnemonic.Selects m' w → m = m')

/-- R63, the spec's own inference from R59 and R79: an R or I-arith encoding with rd = x0 is no hint: it decodes to its named instruction and retires, changing pc and
count only; 0x00000013 is addi x0, x0, 0. -/
def Obligations.NoEncodingIsHint : Prop :=
  (∀ w d, opcodeOf w = 0b0110011#7 ∨ opcodeOf w = 0b0010011#7 → rdOf w = 0#5 → decodeRecord w = .ok d →
    ∃ i, decode w = .ok i ∧ i.mnemonic = d.mnemonic ∧ d.mnemonic.Selects w ∧
      ∀ s, exec i s = .next { s with pc := s.pc + 4#32, count := s.count + 1 }) ∧
  decode 0x00000013#32 = .ok (.addi 0#5 0#5 0#32)

/-! ## Datapath blocks -/

/-- R69, with the ALUOp classes of R71: the control table, row by row, in the order RegWrite, MemRead, MemWrite, Branch, Jump,
JumpReg, LinkReg, ALUSrc, MemtoReg, ALUOp. jal's class is the spec's own choice (D12). -/
def Obligations.ControlTableRows : Prop :=
  controlUnit .rType = ⟨true, false, false, false, false, false, false, false, false, .FUNCT⟩ ∧
  controlUnit .lw = ⟨true, true, false, false, false, false, false, true, true, .ADDR⟩ ∧
  controlUnit .sw = ⟨false, false, true, false, false, false, false, true, false, .ADDR⟩ ∧
  controlUnit .iArith = ⟨true, false, false, false, false, false, false, true, false, .FUNCT⟩ ∧
  controlUnit .beq = ⟨false, false, false, true, false, false, false, false, false, .BRANCH⟩ ∧
  controlUnit .jal = ⟨true, false, false, false, true, false, true, false, false, .ADDR⟩ ∧
  controlUnit .jalr = ⟨true, false, false, false, true, true, true, true, false, .ADDR⟩

/-- R70, the spec's own inference from R69: properties of the control table, and LinkReg's priority in Writeback. -/
def Obligations.ControlTableProperties : Prop :=
  (∀ op, ¬((controlUnit op).memRead = true ∧ (controlUnit op).memWrite = true)) ∧
  (∀ op, ¬((controlUnit op).branch = true ∧ (controlUnit op).jump = true)) ∧
  (∀ op, (controlUnit op).jumpReg = true → (controlUnit op).jump = true) ∧
  (∀ op, (controlUnit op).memtoReg = true → (controlUnit op).memRead = true) ∧
  (∀ op, (controlUnit op).linkReg = true → (controlUnit op).regWrite = true ∧ (controlUnit op).jump = true ∧ (op = .jal ∨ op = .jalr)) ∧
  (∀ op, op = .jal ∨ op = .jalr → (controlUnit op).regWrite = true ∧ (controlUnit op).linkReg = true) ∧
  (∀ d rd s e, (controlUnit d.opcode).linkReg = true → d.rd = some rd → rd ≠ 0#5 →
    writebackOf d (signals d s) e s = some (rd, s.pc + 4#32))

/-- R73, in part the spec's own inference from R72 and R59: what the ALU control resolver answers for I-arith whatever the immediate is, that no decoded record reaches its
fallback, and that the fallback is there, ADD. -/
def Obligations.AluControlReached : Prop :=
  (∀ f3 f7, f3 ∉ [0b000#3, 0b111#3, 0b110#3, 0b010#3] → aluControl .FUNCT f3 f7 = .ADD) ∧
  (∀ rd rs1 imm, resolvedOp (Instr.addi rd rs1 imm).record = .ADD) ∧
  (∀ rd rs1 imm, resolvedOp (Instr.andi rd rs1 imm).record = .AND) ∧
  (∀ rd rs1 imm, resolvedOp (Instr.ori rd rs1 imm).record = .OR) ∧
  (∀ w d, decodeRecord w = .ok d → (controlUnit d.opcode).aluOp = .FUNCT →
    (d.funct3, d.funct7) ∈ [(some 0b000#3, some 0b0000000#7), (some 0b000#3, some 0b0100000#7), (some 0b111#3, some 0b0000000#7),
      (some 0b110#3, some 0b0000000#7), (some 0b010#3, some 0b0000000#7), (some 0b000#3, none), (some 0b111#3, none),
      (some 0b110#3, none)])

/-- R74: the ALU's five results, by the views of the words, and Zero. -/
def Obligations.AluResults : Prop :=
  (∀ a b, (alu .ADD a b).toNat = (a.toNat + b.toNat) % 2 ^ 32) ∧
  (∀ a b, (alu .SUB a b).toNat = (a.toNat + 2 ^ 32 - b.toNat) % 2 ^ 32) ∧
  (∀ a b, (alu .ADD a b).toInt = (a.toInt + b.toInt).bmod (2 ^ 32)) ∧
  (∀ a b, (alu .SUB a b).toInt = (a.toInt - b.toInt).bmod (2 ^ 32)) ∧
  (∀ a b k, (alu .AND a b).getLsbD k = (a.getLsbD k && b.getLsbD k)) ∧
  (∀ a b k, (alu .OR a b).getLsbD k = (a.getLsbD k || b.getLsbD k)) ∧
  (∀ a b, alu .SLT a b = if a.toInt < b.toInt then 0x00000001#32 else 0x00000000#32) ∧
  (∀ r, zeroFlag r = true ↔ r = 0x00000000#32)

/-- The meanings written from R85 to R97 and the datapath written from R69 to R83 are the same cycle, for every instruction in
every state, the error cycles of lw and sw among them. The raw word of those error cycles is taken to be `encode i`, which is
the model's inference (DEDUCED, log 6). -/
def Obligations.DatapathRefinesMeanings : Prop :=
  ∀ i s, exec i s = .next (datapathCycle i.record (encode i) s)

/-! ## The thirteen instructions -/

/-- R85: encoding, control, result, frame. -/
def Obligations.AddRule : Prop :=
  (∀ w : Word, w &&& 0xFE00707F#32 = 0x00000033#32 →
    decode w = .ok (.add (w.extractLsb' 7 5) (w.extractLsb' 15 5) (w.extractLsb' 20 5))) ∧
  (∀ rd rs1 rs2, let d := (Instr.add rd rs1 rs2).record
    (controlUnit d.opcode).regWrite = true ∧ (controlUnit d.opcode).aluSrc = false ∧ (controlUnit d.opcode).memtoReg = false ∧
    (controlUnit d.opcode).branch = false ∧ (controlUnit d.opcode).aluOp = .FUNCT ∧ resolvedOp d = .ADD) ∧
  (∀ rd rs1 rs2 s, ∃ t, exec (.add rd rs1 rs2) s = .next t ∧
    RetiresWriting s t rd (s.getReg rs1 + s.getReg rs2) (s.pc + 4#32))

/-- R86: encoding, control, result, frame. -/
def Obligations.SubRule : Prop :=
  (∀ w : Word, w &&& 0xFE00707F#32 = 0x40000033#32 →
    decode w = .ok (.sub (w.extractLsb' 7 5) (w.extractLsb' 15 5) (w.extractLsb' 20 5))) ∧
  (∀ rd rs1 rs2, let d := (Instr.sub rd rs1 rs2).record
    d.opcode = .rType ∧ d.imm = none ∧ (controlUnit d.opcode).aluOp = .FUNCT ∧ resolvedOp d = .SUB) ∧
  (∀ rd rs1 rs2 s, ∃ t, exec (.sub rd rs1 rs2) s = .next t ∧
    RetiresWriting s t rd (s.getReg rs1 - s.getReg rs2) (s.pc + 4#32))

/-- R87: encoding, control, result, frame; with another funct7 the word is a DecodeError. -/
def Obligations.AndRule : Prop :=
  (∀ w : Word, w &&& 0xFE00707F#32 = 0x00007033#32 →
    decode w = .ok (.and (w.extractLsb' 7 5) (w.extractLsb' 15 5) (w.extractLsb' 20 5))) ∧
  (∀ w : Word, w &&& 0x0000707F#32 = 0x00007033#32 → funct7Of w ≠ 0b0000000#7 → Rejected w) ∧
  (∀ rd rs1 rs2, let d := (Instr.and rd rs1 rs2).record
    d.opcode = .rType ∧ (controlUnit d.opcode).aluOp = .FUNCT ∧ resolvedOp d = .AND) ∧
  (∀ rd rs1 rs2 s, ∃ t, exec (.and rd rs1 rs2) s = .next t ∧
    RetiresWriting s t rd (s.getReg rs1 &&& s.getReg rs2) (s.pc + 4#32))

/-- R88: encoding, control, result, frame. -/
def Obligations.OrRule : Prop :=
  (∀ w : Word, w &&& 0xFE00707F#32 = 0x00006033#32 →
    decode w = .ok (.or (w.extractLsb' 7 5) (w.extractLsb' 15 5) (w.extractLsb' 20 5))) ∧
  (∀ rd rs1 rs2, let d := (Instr.or rd rs1 rs2).record
    d.opcode = .rType ∧ (controlUnit d.opcode).aluOp = .FUNCT ∧ resolvedOp d = .OR) ∧
  (∀ rd rs1 rs2 s, ∃ t, exec (.or rd rs1 rs2) s = .next t ∧
    RetiresWriting s t rd (s.getReg rs1 ||| s.getReg rs2) (s.pc + 4#32))

/-- R89: encoding, control, result, frame. The compare is of the signed views, exact. -/
def Obligations.SltRule : Prop :=
  (∀ w : Word, w &&& 0xFE00707F#32 = 0x00002033#32 →
    decode w = .ok (.slt (w.extractLsb' 7 5) (w.extractLsb' 15 5) (w.extractLsb' 20 5))) ∧
  (∀ rd rs1 rs2, let d := (Instr.slt rd rs1 rs2).record
    d.opcode = .rType ∧ (controlUnit d.opcode).aluOp = .FUNCT ∧ resolvedOp d = .SLT) ∧
  (∀ rd rs1 rs2 s, ∃ t, exec (.slt rd rs1 rs2) s = .next t ∧
    RetiresWriting s t rd (if (s.getReg rs1).toInt < (s.getReg rs2).toInt then 1#32 else 0#32) (s.pc + 4#32))

/-- R90: encoding, control, result, frame. -/
def Obligations.AddiRule : Prop :=
  (∀ w : Word, w &&& 0x0000707F#32 = 0x00000013#32 →
    decode w = .ok (.addi (w.extractLsb' 7 5) (w.extractLsb' 15 5) ((w.extractLsb' 20 12).signExtend 32))) ∧
  (∀ rd rs1 imm, let d := (Instr.addi rd rs1 imm).record
    (controlUnit d.opcode).regWrite = true ∧ (controlUnit d.opcode).aluSrc = true ∧ (controlUnit d.opcode).memtoReg = false ∧
    d.funct7 = none ∧ (controlUnit d.opcode).aluOp = .FUNCT ∧ resolvedOp d = .ADD) ∧
  (∀ rd rs1 imm s, ∃ t, exec (.addi rd rs1 imm) s = .next t ∧ RetiresWriting s t rd (s.getReg rs1 + imm) (s.pc + 4#32))

/-- R91: encoding, control, result, frame. -/
def Obligations.AndiRule : Prop :=
  (∀ w : Word, w &&& 0x0000707F#32 = 0x00007013#32 →
    decode w = .ok (.andi (w.extractLsb' 7 5) (w.extractLsb' 15 5) ((w.extractLsb' 20 12).signExtend 32))) ∧
  (∀ rd rs1 imm, let d := (Instr.andi rd rs1 imm).record
    d.opcode = .iArith ∧ (controlUnit d.opcode).aluOp = .FUNCT ∧ resolvedOp d = .AND) ∧
  (∀ rd rs1 imm s, ∃ t, exec (.andi rd rs1 imm) s = .next t ∧ RetiresWriting s t rd (s.getReg rs1 &&& imm) (s.pc + 4#32))

/-- R92: encoding, control, result, frame. -/
def Obligations.OriRule : Prop :=
  (∀ w : Word, w &&& 0x0000707F#32 = 0x00006013#32 →
    decode w = .ok (.ori (w.extractLsb' 7 5) (w.extractLsb' 15 5) ((w.extractLsb' 20 12).signExtend 32))) ∧
  (∀ rd rs1 imm, let d := (Instr.ori rd rs1 imm).record
    d.opcode = .iArith ∧ (controlUnit d.opcode).aluOp = .FUNCT ∧ resolvedOp d = .OR) ∧
  (∀ rd rs1 imm s, ∃ t, exec (.ori rd rs1 imm) s = .next t ∧ RetiresWriting s t rd (s.getReg rs1 ||| imm) (s.pc + 4#32))

/-- R93: encoding, control; the load where EA is aligned and in range, whatever rd is; the two errors where it is not, with
the alignment check first. -/
def Obligations.LwRule : Prop :=
  (∀ w : Word, w &&& 0x0000707F#32 = 0x00002003#32 →
    decode w = .ok (.lw (w.extractLsb' 7 5) (w.extractLsb' 15 5) ((w.extractLsb' 20 12).signExtend 32))) ∧
  (∀ rd rs1 imm, let d := (Instr.lw rd rs1 imm).record
    (controlUnit d.opcode).regWrite = true ∧ (controlUnit d.opcode).memRead = true ∧ (controlUnit d.opcode).aluSrc = true ∧
    (controlUnit d.opcode).memtoReg = true ∧ (controlUnit d.opcode).aluOp = .ADDR ∧ resolvedOp d = .ADD) ∧
  (∀ rd rs1 imm s, s.Accessible (s.getReg rs1 + imm) →
    ∃ t, exec (.lw rd rs1 imm) s = .next t ∧
      RetiresWriting s t rd (s.mem.readWord (s.getReg rs1 + imm).toNat) (s.pc + 4#32)) ∧
  (∀ w rd rs1 imm s, decode w = .ok (.lw rd rs1 imm) → (s.getReg rs1 + imm).toNat % 4 ≠ 0 →
    ∃ t, exec (.lw rd rs1 imm) s = .next t ∧ FailsWith s t .unalignedAccessError (some w) .memory) ∧
  (∀ w rd rs1 imm s, decode w = .ok (.lw rd rs1 imm) → (s.getReg rs1 + imm).toNat % 4 = 0 →
    4 * s.memWords ≤ (s.getReg rs1 + imm).toNat →
    ∃ t, exec (.lw rd rs1 imm) s = .next t ∧ FailsWith s t .outOfRangeAccessError (some w) .memory)

/-- R94: encoding, control; the store where EA is aligned and in range, with its whole frame: the word at EA reads the stored
value, every byte outside the four at EA reads as before, no register is written; the two errors where it is not. -/
def Obligations.SwRule : Prop :=
  (∀ w : Word, w &&& 0x0000707F#32 = 0x00002023#32 →
    decode w = .ok (.sw (w.extractLsb' 20 5) (w.extractLsb' 15 5)
      ((w.extractLsb' 25 7 ++ w.extractLsb' 7 5 : BitVec 12).signExtend 32))) ∧
  (∀ rs2 rs1 imm, let d := (Instr.sw rs2 rs1 imm).record
    (controlUnit d.opcode).memWrite = true ∧ (controlUnit d.opcode).aluSrc = true ∧ (controlUnit d.opcode).regWrite = false ∧
    (controlUnit d.opcode).aluOp = .ADDR ∧ resolvedOp d = .ADD) ∧
  (∀ rs2 rs1 imm s, s.Accessible (s.getReg rs1 + imm) →
    ∃ t, exec (.sw rs2 rs1 imm) s = .next t ∧ t.mem.readWord (s.getReg rs1 + imm).toNat = s.getReg rs2 ∧
      (∀ a, ¬InWord (s.getReg rs1 + imm) a → t.mem.readByte a = s.mem.readByte a) ∧
      SameRegs s t ∧ SameControl s t ∧ t.pc = s.pc + 4#32 ∧ t.count = s.count + 1) ∧
  (∀ w rs2 rs1 imm s, decode w = .ok (.sw rs2 rs1 imm) → (s.getReg rs1 + imm).toNat % 4 ≠ 0 →
    ∃ t, exec (.sw rs2 rs1 imm) s = .next t ∧ FailsWith s t .unalignedAccessError (some w) .memory) ∧
  (∀ w rs2 rs1 imm s, decode w = .ok (.sw rs2 rs1 imm) → (s.getReg rs1 + imm).toNat % 4 = 0 →
    4 * s.memWords ≤ (s.getReg rs1 + imm).toNat →
    ∃ t, exec (.sw rs2 rs1 imm) s = .next t ∧ FailsWith s t .outOfRangeAccessError (some w) .memory)

/-- R95: encoding, control; the branch is taken exactly when the two registers hold equal words, and nothing but pc and count
changes. -/
def Obligations.BeqRule : Prop :=
  (∀ w : Word, w &&& 0x0000707F#32 = 0x00000063#32 →
    decode w = .ok (.beq (w.extractLsb' 15 5) (w.extractLsb' 20 5)
      ((w.extractLsb' 31 1 ++ w.extractLsb' 7 1 ++ w.extractLsb' 25 6 ++ w.extractLsb' 8 4 ++ 0#1 : BitVec 13).signExtend
        32))) ∧
  (∀ rs1 rs2 off, let d := (Instr.beq rs1 rs2 off).record
    (controlUnit d.opcode).branch = true ∧ (controlUnit d.opcode).aluSrc = false ∧ (controlUnit d.opcode).regWrite = false ∧
    (controlUnit d.opcode).aluOp = .BRANCH ∧ resolvedOp d = .SUB) ∧
  (∀ rs1 rs2 off s, ∃ t, exec (.beq rs1 rs2 off) s = .next t ∧
    t.pc = (if s.getReg rs1 = s.getReg rs2 then s.pc + off else s.pc + 4#32) ∧
    SameRegs s t ∧ SameMemory s t ∧ SameControl s t ∧ t.count = s.count + 1)

/-- R96: encoding, control, link, target, frame. -/
def Obligations.JalRule : Prop :=
  (∀ w : Word, w &&& 0x0000007F#32 = 0x0000006F#32 →
    decode w = .ok (.jal (w.extractLsb' 7 5)
      ((w.extractLsb' 31 1 ++ w.extractLsb' 12 8 ++ w.extractLsb' 20 1 ++ w.extractLsb' 21 10 ++ 0#1 :
        BitVec 21).signExtend 32))) ∧
  (∀ rd off, let d := (Instr.jal rd off).record
    (controlUnit d.opcode).regWrite = true ∧ (controlUnit d.opcode).jump = true ∧ (controlUnit d.opcode).jumpReg = false ∧
    (controlUnit d.opcode).linkReg = true ∧ (controlUnit d.opcode).aluSrc = false ∧ (controlUnit d.opcode).aluOp = .ADDR) ∧
  (∀ rd off s, ∃ t, exec (.jal rd off) s = .next t ∧ RetiresWriting s t rd (s.pc + 4#32) (s.pc + off))

/-- R97: encoding, control, link, target from the old x[rs1] with bit 0 cleared, frame. -/
def Obligations.JalrRule : Prop :=
  (∀ w : Word, w &&& 0x0000707F#32 = 0x00000067#32 →
    decode w = .ok (.jalr (w.extractLsb' 7 5) (w.extractLsb' 15 5) ((w.extractLsb' 20 12).signExtend 32))) ∧
  (∀ rd rs1 imm, let d := (Instr.jalr rd rs1 imm).record
    (controlUnit d.opcode).regWrite = true ∧ (controlUnit d.opcode).jump = true ∧ (controlUnit d.opcode).jumpReg = true ∧
    (controlUnit d.opcode).linkReg = true ∧ (controlUnit d.opcode).aluSrc = true ∧ (controlUnit d.opcode).aluOp = .ADDR ∧
    resolvedOp d = .ADD) ∧
  (∀ rd rs1 imm s, ∃ t, exec (.jalr rd rs1 imm) s = .next t ∧
    RetiresWriting s t rd (s.pc + 4#32) ((s.getReg rs1 + imm) &&& 0xFFFFFFFE#32) ∧
    t.pc.toNat = (s.getReg rs1 + imm).toNat / 2 * 2)

/-! ## Registers and memory -/

/-- R19: x0 reads 0 and discards writes, from an instruction, from Writeback and from the initial-state interface. -/
def Obligations.X0HardWired : Prop :=
  (∀ s : State, s.getReg 0#5 = 0x00000000#32) ∧ (∀ (s : State) v, s.setReg 0#5 v = s) ∧
  (∀ d g e s v, writebackOf d g e s ≠ some (0#5, v)) ∧ (∀ (s : State) v, s.applyRegisterMap [(0, v)] = s)

/-- What one instruction may change: no register but its own rd, no byte but the four at the effective address of a sw, and
not both kinds; the program and MEM_WORDS never (R20, R21, R83). -/
def Obligations.InstructionCommitBound : Prop :=
  ∀ i s t, exec i s = .next t →
    (∀ r, i.record.rd ≠ some r → t.getReg r = s.getReg r) ∧
    (∀ rs2 rs1 imm, i = .sw rs2 rs1 imm → ∀ a, ¬InWord (s.getReg rs1 + imm) a → t.mem.readByte a = s.mem.readByte a) ∧
    (i.mnemonic ≠ .sw → t.mem = s.mem) ∧
    (t.mem ≠ s.mem → SameRegs s t) ∧
    t.imem = s.imem ∧ t.memWords = s.memWords

/-- "Only lw reads" data memory (R21): every other instruction does the same, outside data memory, whatever data memory
holds. -/
def Obligations.OnlyLwReadsMemory : Prop :=
  ∀ i s m t u, i.mnemonic ≠ .lw → exec i s = .next t → exec i { s with mem := m } = .next u →
    { t with mem := [] } = { u with mem := [] }

/-- R34: a store that passes the checks sets the addressed word, and every other word keeps its value; one that does not makes
no state. -/
def Obligations.StoreThenLoadReturnsValue : Prop :=
  (∀ (s : State) ea v, s.Accessible ea →
    ∃ t, s.memWrite ea v = .ok t ∧ t.memRead ea = .ok v ∧
      (∀ ea', s.Accessible ea' → ea' ≠ ea → t.memRead ea' = s.memRead ea') ∧
      (∀ a, ¬InWord ea a → t.mem.readByte a = s.mem.readByte a)) ∧
  (∀ (s : State) ea v, ¬s.Accessible ea → ∃ kind, s.memWrite ea v = .error kind)

/-- R35, R36, R37 as a step shows them: a lw or sw with a misaligned EA, in or out of range, raises UnalignedAccessError; with
an aligned EA out of range, OutOfRangeAccessError; and a negative EA is out of range while MEM_WORDS is within its bound. -/
def Obligations.DataAccessErrors : Prop :=
  (∀ s w i ea, RunsNext s w i → (∃ rd rs1 imm, i = .lw rd rs1 imm ∧ ea = s.getReg rs1 + imm) ∨
      (∃ rs2 rs1 imm, i = .sw rs2 rs1 imm ∧ ea = s.getReg rs1 + imm) →
    (ea.extractLsb' 0 2 ≠ 0b00#2 → ∃ t, step s = .next t ∧ FailsWith s t .unalignedAccessError (some w) .memory) ∧
    (ea.extractLsb' 0 2 = 0b00#2 → 4 * s.memWords ≤ ea.toNat →
      ∃ t, step s = .next t ∧ FailsWith s t .outOfRangeAccessError (some w) .memory)) ∧
  (∀ (s : State) (ea : Word), s.memWords ≤ 2 ^ 29 → ea.toInt < 0 → 4 * s.memWords ≤ ea.toNat)

/-- R43: along every run a word of data memory holds the value of the most recent store to it in program order, or its initial
value if there was none, and that is the value a load of it sees. -/
def Obligations.LoadSeesMostRecentStore : Prop :=
  ∀ n (s t : State) ea, s.Accessible ea → Host.Core.run core n s = .next t →
    t.mem.readWord ea.toNat = lastStored ea (s.mem.readWord ea.toNat) (traceRun n s) ∧
    ∀ w rd rs1 imm, RunsNext t w (.lw rd rs1 imm) → t.getReg rs1 + imm = ea → rd ≠ 0#5 →
      ∃ u, step t = .next u ∧ u.getReg rd = lastStored ea (s.mem.readWord ea.toNat) (traceRun n s)

/-- Two memories in canonical form that read the same at every byte are the same list. The canonical form is the model's
(log 2). -/
def Obligations.CanonicalMemoryUnique : Prop :=
  ∀ m m' : Memory, m.wf → m'.wf → (∀ a, m.readByte a = m'.readByte a) → m = m'

/-! ## The cycle -/

/-- R81: the fetch of a running cycle, in its four cases. -/
def Obligations.FetchClassifiesPc : Prop :=
  ∀ s : State, s.run = .running →
    (s.pc.extractLsb' 0 2 ≠ 0b00#2 → ∃ t, step s = .next t ∧ FailsWith s t .unalignedAccessError none .fetch) ∧
    (s.pc.extractLsb' 0 2 = 0b00#2 → s.pc.getLsbD 31 = true →
      ∃ t, step s = .next t ∧ FailsWith s t .outOfRangeAccessError none .fetch) ∧
    (s.pc.extractLsb' 0 2 = 0b00#2 → s.pc.getLsbD 31 = false → 4 * s.imem.length ≤ s.pc.toNat →
      step s = .next { s with run := .haltedNormal }) ∧
    (s.pc.extractLsb' 0 2 = 0b00#2 → s.pc.getLsbD 31 = false → s.pc.toNat < 4 * s.imem.length →
      ∃ inst, s.imem[s.pc.toNat / 4]? = some inst ∧ s.fetch = .word inst)

/-- A running step at a fetchable pc whose word decodes to `i` is `exec i`: nothing else happens around it (R82). -/
def Obligations.StepRunsDecodedInstruction : Prop := ∀ s w i, RunsNext s w i → step s = exec i s

/-- A fetched word that the decoder rejects ends the run with a DecodeError (R61, R98, R99). -/
def Obligations.DecodeErrorIsFatal : Prop :=
  ∀ (s : State) w, s.run = .running → FetchablePc s.pc → s.imem[s.pc.toNat / 4]? = some w → Rejected w →
    ∃ t, step s = .next t ∧ FailsWith s t .decodeError (some w) .decode

/-- R100: a cycle that raises a fatal error sets run and err and changes nothing else, and emits no trace record. -/
def Obligations.FatalErrorIsPrecise : Prop :=
  ∀ s t, s.run = .running → step s = .next t → t.run = .haltedError →
    (∃ e, t = { s with run := .haltedError, err := some e }) ∧ traceOf s = none

/-- R99: a fatal error stores its record and nothing else of it: the failing cycle's pc, the fetched word but for a FETCH error,
and the stage; the kind is DecodeError exactly in DECODE. -/
def Obligations.ErrorRecordContext : Prop :=
  ∀ s t, s.run = .running → step s = .next t → t.run = .haltedError →
    ∃ e, t = { s with run := .haltedError, err := some e } ∧ e.pc = s.pc ∧
      (e.stage = .fetch → e.raw = none) ∧
      (e.stage = .decode ∨ e.stage = .memory → ∃ w, e.raw = some w ∧ s.imem[s.pc.toNat / 4]? = some w) ∧
      (e.stage = .decode ↔ e.kind = .decodeError)

/-- R101: the error a cycle raises is the first in stage order: fetch alignment, fetch range, program end (no error), decode,
memory alignment, memory range. -/
def Obligations.FirstErrorInStageOrder : Prop :=
  ∀ s t, s.run = .running → step s = .next t → t.run = .haltedError →
    ∃ e, t.err = some e ∧
      (s.pc.toNat % 4 ≠ 0 → e.kind = .unalignedAccessError ∧ e.stage = .fetch) ∧
      (s.pc.toNat % 4 = 0 → 2 ^ 31 ≤ s.pc.toNat → e.kind = .outOfRangeAccessError ∧ e.stage = .fetch) ∧
      (FetchablePc s.pc → s.pc.toNat < 4 * s.imem.length ∧
        ∃ w, s.imem[s.pc.toNat / 4]? = some w ∧
          (Rejected w → e.kind = .decodeError ∧ e.stage = .decode) ∧
          (∀ i, decode w = .ok i → e.stage = .memory ∧ ∃ rs1 imm, i.record.rs1 = some rs1 ∧ i.record.imm = some imm ∧
            (i.mnemonic = .lw ∨ i.mnemonic = .sw) ∧
            ((s.getReg rs1 + imm).toNat % 4 ≠ 0 → e.kind = .unalignedAccessError) ∧
            ((s.getReg rs1 + imm).toNat % 4 = 0 → 4 * s.memWords ≤ (s.getReg rs1 + imm).toNat ∧ e.kind = .outOfRangeAccessError)))

/-- A halted state takes no step that changes it, and a host stop leaves it as it is; the only ways a run ends are the
program-end fetch and a fatal error; a host stop leaves a running state running; a reset leaves the halted states (60_exceptions.md
section 2). That a halted core's step answers the same state is the model's reading of "takes no step" and of vector F3 (DEDUCED,
log 5), and that a host stop is the identity is the model's form of it (DEDUCED, log 17). -/
def Obligations.HaltedStatesAreTerminal : Prop :=
  (∀ s : State, s.Ended → step s = .next s) ∧
  (∀ s t : State, s.run = .running → step s = .next t → t.Ended →
    (t = { s with run := .haltedNormal } ∧ FetchablePc s.pc ∧ 4 * s.imem.length ≤ s.pc.toNat) ∨
    (∃ e, t = { s with run := .haltedError, err := some e })) ∧
  (∀ s : State, s.run = .running → (hostStop s).run = .running) ∧
  (∀ s : State, s.Ended → hostStop s = s) ∧
  (∀ s : State, (hostReset s).run = .running)

/-- R25: a running step either retires, adding 1 to count, or ends the run, leaving count; so along every run count grows by
exactly the number of instructions that retired, one trace record each, which where the run has not ended is the number of
steps; and no instruction reads the counter: what it does apart from count is the same whatever count is. -/
def Obligations.CountEqualsRetired : Prop :=
  (∀ s t : State, s.run = .running → step s = .next t →
    (t.run = .running ∧ t.count = s.count + 1 ∧ (traceOf s).isSome = true) ∨
    (t.Ended ∧ t.count = s.count ∧ traceOf s = none)) ∧
  (∀ n (s t : State), Host.Core.run core n s = .next t →
    t.count = s.count + (traceRun n s).length ∧ (t.run = .running → t.count = s.count + n)) ∧
  (∀ i s t c, exec i s = .next t → ∃ u, exec i { s with count := c } = .next u ∧ { u with count := 0 } = { t with count := 0 })

/-- Every step answers a next state: the core has no condition without an effect (60_exceptions.md sections 1 and 2). It rests on
the model's readings that an error is a next state (DEDUCED, log 4) and that a halted core's step answers the same state
(DEDUCED, log 5). -/
def Obligations.StepAlwaysAnswers : Prop := ∀ s, ∃ t, step s = .next t

/-- R46: no store is seen by a fetch, and IMEM is the same along every run. -/
def Obligations.ProgramIsImmutable : Prop :=
  (∀ (s : State) m, ({ s with mem := m } : State).fetch = s.fetch) ∧
  (∀ n (s t : State), Host.Core.run core n s = .next t → t.imem = s.imem ∧ t.memWords = s.memWords)

/-- Where the fetch of a cycle finds a word, pc + 4 does not wrap and stays below 2^31, while PROG_LEN is within its bound
(00_scope.md section 3). -/
def Obligations.FetchedPcDoesNotWrap : Prop :=
  ∀ (s : State) w, s.imem.length ≤ Config.maxProgLen → s.fetch = .word w →
    s.pcPlus4.toNat = s.pc.toNat + 4 ∧ s.pcPlus4.toNat < 2 ^ 31

/-- The spec's example of a run that never ends (R95, R120): at a beq x0, x0, 0 every step retires and only count moves. -/
def Obligations.SelfBranchNeverEnds : Prop :=
  ∀ n (s : State), s.run = .running → FetchablePc s.pc → s.imem[s.pc.toNat / 4]? = some 0x00000063#32 →
    Host.Core.run core n s = .next { s with count := s.count + n }

/-- R84: a cycle that retires emits one record with the fields the rule lists; a cycle that ends the run, and a halted state,
emit none. -/
def Obligations.TraceRecordOfCycle : Prop :=
  (∀ s t : State, s.run = .running → step s = .next t → t.run = .running →
    ∃ r d, traceOf s = some r ∧ s.imem[s.pc.toNat / 4]? = some r.raw ∧ decodeRecord r.raw = .ok d ∧
      r.cycle = t.count ∧ r.mnemonic = d.mnemonic ∧ r.control = controlUnit d.opcode ∧ r.pc = t.pc ∧
      (∀ rs1, d.rs1 = some rs1 → ∃ b, (if (controlUnit d.opcode).aluSrc then d.imm else d.rs2.map s.getReg) = some b ∧
        r.aluResult = alu (resolvedOp d) (s.getReg rs1) b) ∧
      (match r.memEffect with
        | .none => r.mnemonic ≠ .lw ∧ r.mnemonic ≠ .sw ∧ t.mem = s.mem
        | .read ea v => r.mnemonic = .lw ∧ ea = r.aluResult ∧ v = s.mem.readWord ea.toNat ∧ t.mem = s.mem
        | .write ea v => r.mnemonic = .sw ∧ ea = r.aluResult ∧ d.rs2.map s.getReg = some v ∧
            t.mem = s.mem.writeWord ea.toNat v) ∧
      (match r.regWritten with
        | none => SameRegs s t ∧ (d.rd = none ∨ d.rd = some 0#5)
        | some (rd, v) => d.rd = some rd ∧ rd ≠ 0#5 ∧ OnlyRegWritten s t rd v)) ∧
  (∀ s t : State, step s = .next t → t.Ended → traceOf s = none)

/-! ## The invariant -/

/-- The invariant holds at reset, whatever MEM_WORDS is within its bound, and after a host reset of every state that meets it,
which keeps MEM_WORDS. That MEM_WORDS is a field of the state, and its value in `State.reset`, are the model's (DESIGN CHOICE,
log 1). -/
def Obligations.InvariantAtReset : Prop :=
  (∀ m ≤ Config.maxMemWords, (State.resetWith m).Inv) ∧ State.reset.Inv ∧
  (∀ s : State, s.Inv → (hostReset s).Inv ∧ (hostReset s).memWords = s.memWords)

/-- The invariant holds where a run begins: of every state the host's load answers. -/
def Obligations.InvariantAfterBoot : Prop :=
  ∀ m prog regMap memMap s, boot m prog regMap memMap = .next s → s.Inv

/-- Every step from a state that meets the invariant leads to one that meets it. -/
def Obligations.StepKeepsInvariant : Prop := ∀ s t : State, s.Inv → step s = .next t → t.Inv

/-! ## Reset and the start of a run -/

/-- R114: reset puts every piece of state to the value of R31, and no step leaves a halted state. What a halted core's step
answers besides is not said here (log 5). -/
def Obligations.ResetValues : Prop :=
  (∀ s : State, let t := hostReset s
    (∀ r, t.getReg r = 0#32) ∧ t.pc = 0#32 ∧ (∀ a, t.mem.readWord a = 0#32) ∧ t.run = .running ∧ t.count = 0 ∧ t.err = none) ∧
  (∀ u t : State, u.Ended → step u = .next t → t.run = u.run)

/-- R116, R117: the state a run begins in. A register or word a map names holds its entry's value, a negative integer n as
n + 2^32; x0 and every location not named hold 0; pc is 0. A map is given as a list with no key twice (log 11). An entry with a
key outside its range is refused. -/
def Obligations.BootAppliesInitialMaps : Prop :=
  (∀ m prog regMap memMap, m ≤ Config.maxMemWords → prog.length ≤ Config.maxProgLen → (∀ w ∈ prog, w < 2 ^ 32) →
    (∀ e ∈ regMap, e.1 ≤ 31 ∧ -(2 ^ 31) ≤ e.2 ∧ e.2 < 2 ^ 32) →
    (∀ e ∈ memMap, e.1 % 4 = 0 ∧ e.1 < 4 * m ∧ -(2 ^ 31) ≤ e.2 ∧ e.2 < 2 ^ 32) →
    (regMap.map Prod.fst).Nodup → (memMap.map Prod.fst).Nodup →
    ∃ s, boot m prog regMap memMap = .next s ∧ s.pc = 0#32 ∧ s.run = .running ∧ s.count = 0 ∧ s.err = none ∧
      s.memWords = m ∧ s.imem.map BitVec.toNat = prog ∧ s.getReg 0#5 = 0#32 ∧
      (∀ i v, (i, v) ∈ regMap → i ≠ 0 →
        ((s.getReg (BitVec.ofNat 5 i)).toNat : Int) = if v < 0 then v + 2 ^ 32 else v) ∧
      (∀ i ≤ 31, i ∉ regMap.map Prod.fst → s.getReg (BitVec.ofNat 5 i) = 0#32) ∧
      (∀ a v, (a, v) ∈ memMap → ((s.mem.readWord a).toNat : Int) = if v < 0 then v + 2 ^ 32 else v) ∧
      (∀ a, a % 4 = 0 → a ∉ memMap.map Prod.fst → s.mem.readWord a = 0#32)) ∧
  (∀ m prog regMap memMap s, boot m prog regMap memMap = .next s →
    (∀ e ∈ regMap, e.1 ≤ 31) ∧ (∀ e ∈ memMap, e.1 % 4 = 0 ∧ e.1 < 4 * m))

/-- A run of the empty program halts normally in its first cycle, with count = 0 (R118, the spec's own
inference from R81). -/
def Obligations.EmptyProgramHalts : Prop :=
  ∀ m regMap memMap s, boot m [] regMap memMap = .next s →
    step s = .next { s with run := .haltedNormal } ∧ s.count = 0

/-- A program with an entry that is no 32-bit word is rejected whole; a run begins only with the whole program loaded
(60_exceptions.md section 4). That the answer is MalformedImmediateError where the load has another defect too is the order of the
load's checks, which the spec leaves open (DESIGN CHOICE, log 15). -/
def Obligations.ProgramLoadedWholeOrNotAtAll : Prop :=
  (∀ m prog regMap memMap, m ≤ Config.maxMemWords → (∃ w ∈ prog, 2 ^ 32 ≤ w) →
    boot m prog regMap memMap = .fault .malformedImmediateError) ∧
  (∀ m prog regMap memMap s, boot m prog regMap memMap = .next s →
    s.imem.length = prog.length ∧ s.imem.map BitVec.toNat = prog)

/-- The snapshots list exactly the registers and the words that are not 0, by index and by byte address (R111). -/
def Obligations.SnapshotsListNonZero : Prop :=
  (∀ s i v, (i, v) ∈ registerSnapshot s ↔ i ≤ 31 ∧ v = s.getReg (BitVec.ofNat 5 i) ∧ v ≠ 0#32) ∧
  (∀ s a v, (a, v) ∈ memorySnapshot s ↔
    a % 4 = 0 ∧ a < 4 * s.memWords ∧ v = s.mem.readWord a ∧ v ≠ 0#32)
end

