-- ==== Sys2Proof/Laws/Memory.lean ====
section
/-! SUPPORT. Laws of the memory list: what a write leaves readable, and that every memory operation keeps the canonical form. -/

namespace Sys2Proof.Machine

/-! ## One byte -/

theorem readByte_eraseByte (m : Memory) (a b : Nat) :
    (m.eraseByte a).readByte b = if a = b then Config.unlistedByte else m.readByte b := by
  unfold Memory.eraseByte
  induction m with
  | nil => simp [Memory.readByte]
  | cons c m ih =>
    by_cases h : c.1 = a
    · rw [List.filter_cons_of_neg (by simp [h]), ih, Memory.readByte, h]
      split <;> rfl
    · rw [List.filter_cons_of_pos (by simp [h]), Memory.readByte, Memory.readByte, ih]
      by_cases hb : c.1 = b
      · rw [if_pos hb, if_pos hb, if_neg (by omega)]
      · rw [if_neg hb, if_neg hb]

theorem readByte_insertByte (m : Memory) (a b : Nat) (v : Byte) (h : ∀ c ∈ m, c.1 ≠ a) :
    (m.insertByte a v).readByte b = if a = b then v else m.readByte b := by
  induction m with
  | nil => simp [Memory.insertByte, Memory.readByte]
  | cons c m ih =>
    have hc := h c (by simp)
    have ih := ih fun c' h' => h c' (by simp [h'])
    rw [Memory.insertByte]
    split
    · simp [Memory.readByte]
    · rw [Memory.readByte, ih, Memory.readByte]
      by_cases hb : c.1 = b
      · rw [if_pos hb, if_pos hb, if_neg (by omega)]
      · rw [if_neg hb, if_neg hb]

theorem not_mem_eraseByte (m : Memory) (a : Nat) : ∀ c ∈ m.eraseByte a, c.1 ≠ a := by
  intro c hc
  simpa using (List.mem_filter.mp hc).2

/-- Everything a byte write does to reads. -/
theorem readByte_writeByte (m : Memory) (a b : Nat) (v : Byte) :
    (m.writeByte a v).readByte b = if a = b then v else m.readByte b := by
  unfold Memory.writeByte
  split
  · next h => rw [readByte_eraseByte, h]
  · rw [readByte_insertByte _ _ _ _ (not_mem_eraseByte m a), readByte_eraseByte]
    split <;> rfl

theorem mem_insertByte {m : Memory} {a : Nat} {v : Byte} {c : Host.Cell} :
    c ∈ m.insertByte a v ↔ c = (a, v) ∨ c ∈ m := by
  induction m with
  | nil => simp [Memory.insertByte]
  | cons d m ih =>
    rw [Memory.insertByte]
    split
    · simp
    · simp only [List.mem_cons, ih]
      tauto

/-- A byte write lists no address but the old ones and its own. -/
theorem mem_writeByte {m : Memory} {a : Nat} {v : Byte} {c : Host.Cell} (h : c ∈ m.writeByte a v) :
    c.1 = a ∨ c ∈ m := by
  unfold Memory.writeByte at h
  split at h
  · exact .inr (List.mem_filter.mp h).1
  · rcases mem_insertByte.mp h with rfl | h
    · exact .inl rfl
    · exact .inr (List.mem_filter.mp h).1

theorem eraseByte_wf {m : Memory} (h : m.wf) (a : Nat) : (m.eraseByte a).wf :=
  ⟨h.1.filter _, fun c hc => h.2 c (List.mem_filter.mp hc).1⟩

theorem insertByte_wf {m : Memory} (h : m.wf) {a : Nat} {v : Byte} (hv : v ≠ Config.unlistedByte)
    (ha : ∀ c ∈ m, c.1 ≠ a) : (m.insertByte a v).wf := by
  refine ⟨?_, fun c hc => ?_⟩
  · have hs := h.1
    clear h
    induction m with
    | nil => simp [Memory.insertByte]
    | cons d m ih =>
      have hd := ha d (by simp)
      rw [List.pairwise_cons] at hs
      rw [Memory.insertByte]
      split
      · next hlt =>
        refine List.pairwise_cons.mpr ⟨fun c hc => ?_, List.pairwise_cons.mpr hs⟩
        rcases List.mem_cons.mp hc with rfl | hc
        · exact hlt
        · exact Nat.lt_trans hlt (hs.1 c hc)
      · refine List.pairwise_cons.mpr ⟨fun c hc => ?_, ih (fun c hc => ha c (by simp [hc])) hs.2⟩
        rcases mem_insertByte.mp hc with rfl | hc
        · change d.1 < a; omega
        · exact hs.1 c hc
  · rcases mem_insertByte.mp hc with rfl | hc
    · exact hv
    · exact h.2 c hc

/-- A byte write keeps the canonical form. -/
theorem writeByte_wf {m : Memory} (h : m.wf) (a : Nat) (v : Byte) : (m.writeByte a v).wf := by
  unfold Memory.writeByte
  split
  · exact eraseByte_wf h a
  · next hv => exact insertByte_wf (eraseByte_wf h a) hv (not_mem_eraseByte m a)

/-! ## One word -/

/-- Every byte outside the four of a stored word reads as before. -/
theorem readByte_writeWord_of_not_in (m : Memory) (a b : Nat) (v : Word) (h : ¬(a ≤ b ∧ b < a + 4)) :
    (m.writeWord a v).readByte b = m.readByte b := by
  simp only [Memory.writeWord, readByte_writeByte]
  rw [if_neg (by omega), if_neg (by omega), if_neg (by omega), if_neg (by omega)]

/-- A stored word reads back. -/
theorem readWord_writeWord (m : Memory) (a : Nat) (v : Word) : (m.writeWord a v).readWord a = v := by
  simp only [Memory.readWord, Memory.writeWord, readByte_writeByte]
  simp only [Nat.add_eq_left, Nat.reduceEqDiff, ↓reduceIte, Nat.add_left_cancel_iff, OfNat.ofNat_ne_zero, one_ne_zero]
  apply BitVec.eq_of_getLsbD_eq
  intro i hi
  interval_cases i <;> simp only [BitVec.getLsbD_append, BitVec.getLsbD_extractLsb'] <;> simp

/-- A word four or more bytes away from a stored one reads as before. -/
theorem readWord_writeWord_of_apart (m : Memory) (a b : Nat) (v : Word) (h : b + 4 ≤ a ∨ a + 4 ≤ b) :
    (m.writeWord a v).readWord b = m.readWord b := by
  simp only [Memory.readWord]
  rw [readByte_writeWord_of_not_in _ _ _ _ (by omega), readByte_writeWord_of_not_in _ _ _ _ (by omega),
    readByte_writeWord_of_not_in _ _ _ _ (by omega), readByte_writeWord_of_not_in _ _ _ _ (by omega)]

/-- A word write keeps the canonical form. -/
theorem writeWord_wf {m : Memory} (h : m.wf) (a : Nat) (v : Word) : (m.writeWord a v).wf :=
  writeByte_wf (writeByte_wf (writeByte_wf (writeByte_wf h _ _) _ _) _ _) _ _

/-- A word write lists no address but the old ones and its own four. -/
theorem mem_writeWord {m : Memory} {a : Nat} {v : Word} {c : Host.Cell} (h : c ∈ m.writeWord a v) :
    (a ≤ c.1 ∧ c.1 < a + 4) ∨ c ∈ m := by
  rcases mem_writeByte h with h | h
  · omega
  rcases mem_writeByte h with h | h
  · omega
  rcases mem_writeByte h with h | h
  · omega
  rcases mem_writeByte h with h | h
  · omega
  exact .inr h

theorem readByte_of_lt {m : Memory} {a : Nat} (h : ∀ c ∈ m, a < c.1) : m.readByte a = Config.unlistedByte := by
  induction m with
  | nil => rfl
  | cons c m ih =>
    have := h c (by simp)
    rw [Memory.readByte, if_neg (by omega), ih fun d hd => h d (by simp [hd])]

end Sys2Proof.Machine
end

