-- ==== Sys2Proof/Laws/State.lean ====
section
/-! SUPPORT. One lemma per field per update of the state, so that no proof unfolds a record update; and what a register write
leaves readable. -/

namespace Sys2Proof.Machine

/-! ## retire -/

@[simp] theorem retire_regs (s : State) (n : Word) : (s.retire n).regs = s.regs := rfl
@[simp] theorem retire_pc (s : State) (n : Word) : (s.retire n).pc = n := rfl
@[simp] theorem retire_mem (s : State) (n : Word) : (s.retire n).mem = s.mem := rfl
@[simp] theorem retire_memWords (s : State) (n : Word) : (s.retire n).memWords = s.memWords := rfl
@[simp] theorem retire_imem (s : State) (n : Word) : (s.retire n).imem = s.imem := rfl
@[simp] theorem retire_run (s : State) (n : Word) : (s.retire n).run = s.run := rfl
@[simp] theorem retire_count (s : State) (n : Word) : (s.retire n).count = s.count + 1 := rfl
@[simp] theorem retire_err (s : State) (n : Word) : (s.retire n).err = s.err := rfl
@[simp] theorem retire_getReg (s : State) (n : Word) (r : RegIdx) : (s.retire n).getReg r = s.getReg r := rfl

/-! ## raiseError -/

@[simp] theorem raiseError_regs (s : State) (k : ErrorKind) (raw : Option Word) (g : Stage) :
    (s.raiseError k raw g).regs = s.regs := rfl
@[simp] theorem raiseError_pc (s : State) (k : ErrorKind) (raw : Option Word) (g : Stage) :
    (s.raiseError k raw g).pc = s.pc := rfl
@[simp] theorem raiseError_mem (s : State) (k : ErrorKind) (raw : Option Word) (g : Stage) :
    (s.raiseError k raw g).mem = s.mem := rfl
@[simp] theorem raiseError_memWords (s : State) (k : ErrorKind) (raw : Option Word) (g : Stage) :
    (s.raiseError k raw g).memWords = s.memWords := rfl
@[simp] theorem raiseError_imem (s : State) (k : ErrorKind) (raw : Option Word) (g : Stage) :
    (s.raiseError k raw g).imem = s.imem := rfl
@[simp] theorem raiseError_run (s : State) (k : ErrorKind) (raw : Option Word) (g : Stage) :
    (s.raiseError k raw g).run = .haltedError := rfl
@[simp] theorem raiseError_count (s : State) (k : ErrorKind) (raw : Option Word) (g : Stage) :
    (s.raiseError k raw g).count = s.count := rfl
@[simp] theorem raiseError_err (s : State) (k : ErrorKind) (raw : Option Word) (g : Stage) :
    (s.raiseError k raw g).err = some { kind := k, pc := s.pc, raw := raw, stage := g } := rfl
@[simp] theorem raiseError_getReg (s : State) (k : ErrorKind) (raw : Option Word) (g : Stage) (r : RegIdx) :
    (s.raiseError k raw g).getReg r = s.getReg r := rfl

/-! ## haltNormal -/

@[simp] theorem haltNormal_regs (s : State) : s.haltNormal.regs = s.regs := rfl
@[simp] theorem haltNormal_pc (s : State) : s.haltNormal.pc = s.pc := rfl
@[simp] theorem haltNormal_mem (s : State) : s.haltNormal.mem = s.mem := rfl
@[simp] theorem haltNormal_memWords (s : State) : s.haltNormal.memWords = s.memWords := rfl
@[simp] theorem haltNormal_imem (s : State) : s.haltNormal.imem = s.imem := rfl
@[simp] theorem haltNormal_run (s : State) : s.haltNormal.run = .haltedNormal := rfl
@[simp] theorem haltNormal_count (s : State) : s.haltNormal.count = s.count := rfl
@[simp] theorem haltNormal_err (s : State) : s.haltNormal.err = s.err := rfl
@[simp] theorem haltNormal_getReg (s : State) (r : RegIdx) : s.haltNormal.getReg r = s.getReg r := rfl

/-! ## setReg -/

@[simp] theorem setReg_pc (s : State) (r : RegIdx) (v : Word) : (s.setReg r v).pc = s.pc := by
  unfold State.setReg
  split <;> rfl
@[simp] theorem setReg_mem (s : State) (r : RegIdx) (v : Word) : (s.setReg r v).mem = s.mem := by
  unfold State.setReg
  split <;> rfl
@[simp] theorem setReg_memWords (s : State) (r : RegIdx) (v : Word) : (s.setReg r v).memWords = s.memWords := by
  unfold State.setReg
  split <;> rfl
@[simp] theorem setReg_imem (s : State) (r : RegIdx) (v : Word) : (s.setReg r v).imem = s.imem := by
  unfold State.setReg
  split <;> rfl
@[simp] theorem setReg_run (s : State) (r : RegIdx) (v : Word) : (s.setReg r v).run = s.run := by
  unfold State.setReg
  split <;> rfl
@[simp] theorem setReg_count (s : State) (r : RegIdx) (v : Word) : (s.setReg r v).count = s.count := by
  unfold State.setReg
  split <;> rfl
@[simp] theorem setReg_err (s : State) (r : RegIdx) (v : Word) : (s.setReg r v).err = s.err := by
  unfold State.setReg
  split <;> rfl

@[simp] theorem setReg_x0 (s : State) (v : Word) : s.setReg 0#5 v = s := rfl

@[simp] theorem getReg_x0 (s : State) : s.getReg 0#5 = 0#32 := rfl

/-- Everything a register write does to reads. -/
theorem getReg_setReg (s : State) (r q : RegIdx) (v : Word) :
    (s.setReg r v).getReg q = if q = r ∧ r ≠ 0#5 then v else s.getReg q := by
  unfold State.setReg State.getReg
  by_cases hr : r = 0#5
  · simp [hr]
  · by_cases hq : q = 0#5
    · subst hq
      simp [hr]
      intro h
      exact absurd h.symm hr
    · simp only [hr, hq, if_false, ne_eq, not_false_eq_true, and_true]
      rw [Vector.getElem_set]
      by_cases h : q = r
      · simp [h]
      · rw [if_neg h, if_neg (fun hc => h (BitVec.eq_of_toNat_eq hc.symm))]

/-- The storage of x0 is never written. -/
theorem setReg_slot0 (s : State) (r : RegIdx) (v : Word) : (s.setReg r v).regs[0] = s.regs[0] := by
  unfold State.setReg
  split
  · rfl
  · next h =>
    rw [Vector.getElem_set_ne]
    intro hc
    exact h (BitVec.eq_of_toNat_eq hc)

/-- Registers are read from `regs` alone. -/
theorem getReg_congr {s t : State} (h : t.regs = s.regs) (r : RegIdx) : t.getReg r = s.getReg r := by
  unfold State.getReg
  rw [h]

/-! ## withMem: the update of a store -/

@[simp] theorem withMem_getReg (s : State) (m : Memory) (r : RegIdx) : ({ s with mem := m } : State).getReg r = s.getReg r :=
  rfl

@[simp] theorem pcPlus4_eq (s : State) : s.pcPlus4 = s.pc + 4#32 := rfl

@[simp] theorem effAddr_eq (s : State) (rs1 : RegIdx) (imm : Word) : s.effAddr rs1 imm = s.getReg rs1 + imm := rfl

@[simp] theorem pcTarget_eq (s : State) (off : Word) : s.pcTarget off = s.pc + off := rfl

@[simp] theorem regTarget_eq (s : State) (rs1 : RegIdx) (imm : Word) :
    s.regTarget rs1 imm = (s.getReg rs1 + imm) &&& 0xFFFFFFFE#32 := rfl

end Sys2Proof.Machine
end

