-- ==== Sys2Proof/Laws/Ops.lean ====
section
/-! SUPPORT. What each shared operation can answer: the access checks, the two accesses, fetch. -/

namespace Sys2Proof.Machine

/-- The two low bits of a word are clear exactly when its address is a multiple of 4. -/
theorem low2_eq_zero_iff (w : Word) : w.extractLsb' 0 2 = 0b00#2 ↔ w.toNat % 4 = 0 := by
  rw [← BitVec.toNat_inj]
  simp

/-- Bit 31 is clear exactly below 2^31. -/
theorem bit31_eq_false_iff (w : Word) : w.getLsbD 31 = false ↔ w.toNat < 2 ^ 31 := by
  have := w.isLt
  rw [BitVec.getLsbD, Nat.testBit_eq_decide_div_mod_eq]
  simp only [decide_eq_false_iff_not]
  omega

/-- The three answers of the access checks (R35 to R37). -/
theorem accessError_eq (s : State) (ea : Word) :
    s.accessError ea =
      if ea.toNat % 4 ≠ 0 then some .unalignedAccessError
      else if 4 * s.memWords ≤ ea.toNat then some .outOfRangeAccessError
      else none := by
  unfold State.accessError
  simp only [ne_eq, low2_eq_zero_iff]

theorem accessError_eq_none_iff (s : State) (ea : Word) : s.accessError ea = none ↔ s.Accessible ea := by
  rw [accessError_eq]
  by_cases h : ea.toNat % 4 = 0 <;> by_cases h' : 4 * s.memWords ≤ ea.toNat <;> simp [h, h', State.Accessible]
  omega

theorem memRead_of_accessible {s : State} {ea : Word} (h : s.Accessible ea) :
    s.memRead ea = .ok (s.mem.readWord ea.toNat) := by
  rw [State.memRead, (accessError_eq_none_iff s ea).mpr h]

theorem memWrite_of_accessible {s : State} {ea : Word} (h : s.Accessible ea) (v : Word) :
    s.memWrite ea v = .ok { s with mem := s.mem.writeWord ea.toNat v } := by
  rw [State.memWrite, (accessError_eq_none_iff s ea).mpr h]

/-- Everything a load's access can answer. -/
theorem memRead_cases (s : State) (ea : Word) :
    (s.Accessible ea ∧ s.memRead ea = .ok (s.mem.readWord ea.toNat)) ∨
    (ea.toNat % 4 ≠ 0 ∧ s.memRead ea = .error .unalignedAccessError) ∨
    (ea.toNat % 4 = 0 ∧ 4 * s.memWords ≤ ea.toNat ∧ s.memRead ea = .error .outOfRangeAccessError) := by
  by_cases h : ea.toNat % 4 = 0 <;> by_cases h' : 4 * s.memWords ≤ ea.toNat
  · exact .inr (.inr ⟨h, h', by simp [State.memRead, accessError_eq, h, h']⟩)
  · exact .inl ⟨⟨h, by omega⟩, memRead_of_accessible ⟨h, by omega⟩⟩
  · exact .inr (.inl ⟨h, by simp [State.memRead, accessError_eq, h]⟩)
  · exact .inr (.inl ⟨h, by simp [State.memRead, accessError_eq, h]⟩)

/-- Everything a store's access can answer. -/
theorem memWrite_cases (s : State) (ea v : Word) :
    (s.Accessible ea ∧ s.memWrite ea v = .ok { s with mem := s.mem.writeWord ea.toNat v }) ∨
    (ea.toNat % 4 ≠ 0 ∧ s.memWrite ea v = .error .unalignedAccessError) ∨
    (ea.toNat % 4 = 0 ∧ 4 * s.memWords ≤ ea.toNat ∧ s.memWrite ea v = .error .outOfRangeAccessError) := by
  by_cases h : ea.toNat % 4 = 0 <;> by_cases h' : 4 * s.memWords ≤ ea.toNat
  · exact .inr (.inr ⟨h, h', by simp [State.memWrite, accessError_eq, h, h']⟩)
  · exact .inl ⟨⟨h, by omega⟩, memWrite_of_accessible ⟨h, by omega⟩ v⟩
  · exact .inr (.inl ⟨h, by simp [State.memWrite, accessError_eq, h]⟩)
  · exact .inr (.inl ⟨h, by simp [State.memWrite, accessError_eq, h]⟩)

/-- Everything fetch can answer (R81). -/
theorem fetch_cases (s : State) :
    (s.pc.toNat % 4 ≠ 0 ∧ s.fetch = .error .unalignedAccessError) ∨
    (s.pc.toNat % 4 = 0 ∧ 2 ^ 31 ≤ s.pc.toNat ∧ s.fetch = .error .outOfRangeAccessError) ∨
    (FetchablePc s.pc ∧ 4 * s.imem.length ≤ s.pc.toNat ∧ s.fetch = .exhausted) ∨
    (FetchablePc s.pc ∧ s.pc.toNat < 4 * s.imem.length ∧
      ∃ w, s.imem[s.pc.toNat / 4]? = some w ∧ s.fetch = .word w) := by
  by_cases h : s.pc.toNat % 4 = 0
  · have hlow := (low2_eq_zero_iff s.pc).mpr h
    by_cases h31 : s.pc.getLsbD 31 = false
    · have hlt := (bit31_eq_false_iff s.pc).mp h31
      by_cases hl : s.pc.toNat < 4 * s.imem.length
      · have hi : s.pc.toNat / 4 < s.imem.length := by omega
        refine .inr (.inr (.inr ⟨⟨h, hlt⟩, hl, s.imem[s.pc.toNat / 4], List.getElem?_eq_getElem hi, ?_⟩))
        rw [State.fetch, if_neg (not_not.mpr hlow), if_neg (by rw [h31]; decide), List.getElem?_eq_getElem hi]
      · refine .inr (.inr (.inl ⟨⟨h, hlt⟩, by omega, ?_⟩))
        have hn : s.imem[s.pc.toNat / 4]? = none := List.getElem?_eq_none (by omega)
        rw [State.fetch, if_neg (not_not.mpr hlow), if_neg (by rw [h31]; decide), hn]
    · have hge : ¬s.pc.toNat < 2 ^ 31 := fun hc => h31 ((bit31_eq_false_iff s.pc).mpr hc)
      refine .inr (.inl ⟨h, by omega, ?_⟩)
      rw [Bool.not_eq_false] at h31
      rw [State.fetch, if_neg (not_not.mpr hlow), if_pos h31]
  · refine .inl ⟨h, ?_⟩
    have : ¬s.pc.extractLsb' 0 2 = 0b00#2 := fun hc => h ((low2_eq_zero_iff s.pc).mp hc)
    simp [State.fetch, this]

theorem fetch_eq_word {s : State} {w : Word} (hpc : FetchablePc s.pc) (hw : s.imem[s.pc.toNat / 4]? = some w) :
    s.fetch = .word w := by
  rw [State.fetch, if_neg (not_not.mpr ((low2_eq_zero_iff s.pc).mpr hpc.1)),
    if_neg (by rw [(bit31_eq_false_iff s.pc).mpr hpc.2]; decide), hw]

theorem of_fetch_eq_word {s : State} {w : Word} (h : s.fetch = .word w) :
    FetchablePc s.pc ∧ s.pc.toNat < 4 * s.imem.length ∧ s.imem[s.pc.toNat / 4]? = some w := by
  rcases fetch_cases s with ⟨_, hf⟩ | ⟨_, _, hf⟩ | ⟨_, _, hf⟩ | ⟨hp, hl, w', hw, hf⟩ <;> rw [h] at hf <;> cases hf
  exact ⟨hp, hl, hw⟩

/-- The Zero flag of a difference is equality of the words: the wrap of SUB cannot make unequal words give 0 (R95). -/
theorem zeroFlag_sub_iff (a b : Word) : zeroFlag (a - b) = true ↔ a = b := by
  simp only [zeroFlag, beq_iff_eq]
  exact sub_eq_zero

/-- What `& 0xFFFFFFFE` clears (R77). -/
theorem toNat_clearBit0 (x : Word) : (x &&& 0xFFFFFFFE#32).toNat = x.toNat / 2 * 2 := by
  have h : x &&& 0xFFFFFFFE#32 = (x >>> 1) <<< 1 := by
    apply BitVec.eq_of_getLsbD_eq
    intro i hi
    simp only [BitVec.getLsbD_and, BitVec.getLsbD_shiftLeft, BitVec.getLsbD_ushiftRight]
    interval_cases i <;> simp
  have := x.isLt
  rw [h, BitVec.toNat_shiftLeft, BitVec.toNat_ushiftRight, Nat.shiftRight_eq_div_pow, Nat.shiftLeft_eq]
  omega

end Sys2Proof.Machine
end

