-- ==== Sys2Proof/Laws/Datapath.lean ====
section
/-! SUPPORT. Laws of the datapath blocks: the rows of the control table, and the write port. -/

namespace Sys2Proof.Machine

/-! ## The control table, row by row (R69, R71) -/

@[simp] theorem controlUnit_rType : controlUnit .rType =
    ⟨true, false, false, false, false, false, false, false, false, .FUNCT⟩ := rfl

@[simp] theorem controlUnit_lw : controlUnit .lw =
    ⟨true, true, false, false, false, false, false, true, true, .ADDR⟩ := rfl

@[simp] theorem controlUnit_sw : controlUnit .sw =
    ⟨false, false, true, false, false, false, false, true, false, .ADDR⟩ := rfl

@[simp] theorem controlUnit_iArith : controlUnit .iArith =
    ⟨true, false, false, false, false, false, false, true, false, .FUNCT⟩ := rfl

@[simp] theorem controlUnit_beq : controlUnit .beq =
    ⟨false, false, false, true, false, false, false, false, false, .BRANCH⟩ := rfl

@[simp] theorem controlUnit_jal : controlUnit .jal =
    ⟨true, false, false, false, true, false, true, false, false, .ADDR⟩ := rfl

@[simp] theorem controlUnit_jalr : controlUnit .jalr =
    ⟨true, false, false, false, true, true, true, true, false, .ADDR⟩ := rfl

/-- Writeback's guard on register 0 is the register file's own (R19, R79). -/
@[simp] theorem applyWriteback_guarded (rd : RegIdx) (v : Word) (s : State) :
    applyWriteback (if rd = 0#5 then none else some (rd, v)) s = s.setReg rd v := by
  by_cases h : rd = 0#5
  · subst h
    rfl
  · rw [if_neg h]
    rfl

/-- Every way the memory stage passes (R78). -/
theorem memoryStage_ok_cases {g : Signals} {s t : State} {e : MemEffect} (h : memoryStage g s = .ok (e, t)) :
    (g.ctl.memRead = true ∧ s.Accessible g.result ∧ e = .read g.result (s.mem.readWord g.result.toNat) ∧ t = s) ∨
    (g.ctl.memRead = false ∧ g.ctl.memWrite = true ∧ s.Accessible g.result ∧ e = .write g.result (g.portB.getD 0#32) ∧
      t = { s with mem := s.mem.writeWord g.result.toNat (g.portB.getD 0#32) }) ∨
    (g.ctl.memRead = false ∧ g.ctl.memWrite = false ∧ e = .none ∧ t = s) := by
  unfold memoryStage at h
  cases hr : g.ctl.memRead with
  | true =>
    rw [hr, if_pos rfl] at h
    rcases memRead_cases s g.result with ⟨ha, hm⟩ | ⟨_, hm⟩ | ⟨_, _, hm⟩ <;> rw [hm] at h <;> cases h
    exact .inl ⟨rfl, ha, rfl, rfl⟩
  | false =>
    rw [hr, if_neg (by decide)] at h
    cases hw : g.ctl.memWrite with
    | true =>
      rw [hw, if_pos rfl] at h
      rcases memWrite_cases s g.result (g.portB.getD 0#32) with ⟨ha, hm⟩ | ⟨_, hm⟩ | ⟨_, _, hm⟩ <;> rw [hm] at h <;> cases h
      exact .inr (.inl ⟨rfl, rfl, ha, rfl, rfl⟩)
    | false =>
      rw [hw, if_neg (by decide)] at h
      cases h
      exact .inr (.inr ⟨rfl, rfl, rfl, rfl⟩)

/-- The memory stage leaves the run state alone. -/
theorem memoryStage_run {g : Signals} {s t : State} {e : MemEffect} (h : memoryStage g s = .ok (e, t)) : t.run = s.run := by
  rcases memoryStage_ok_cases h with ⟨-, -, -, rfl⟩ | ⟨-, -, -, -, rfl⟩ | ⟨-, -, -, rfl⟩ <;> rfl

@[simp] theorem applyWriteback_run (w : Option (RegIdx × Word)) (s : State) : (applyWriteback w s).run = s.run := by
  cases w <;> simp [applyWriteback]

@[simp] theorem applyWriteback_mem (w : Option (RegIdx × Word)) (s : State) : (applyWriteback w s).mem = s.mem := by
  cases w <;> simp [applyWriteback]

end Sys2Proof.Machine
end

