-- ==== Sys2Proof/Laws/Decode.lean ====
section
/-! SUPPORT. Laws of the decoder and the encoder: fields of an encoded word, a word from its fields, and the one lemma that
says what the decoder accepts, `decode_eq_ok_iff`. -/

namespace Sys2Proof

/-! ## The opcode -/

@[simp] theorem opcodeFrom_code (op : Opcode) : opcodeFrom op.code = some op := by cases op <;> rfl

theorem opcodeFrom_eq_some {b : BitVec 7} {op : Opcode} : opcodeFrom b = some op ↔ b = op.code := by
  constructor
  · intro h
    unfold opcodeFrom at h
    repeat' split at h
    all_goals simp_all
  · rintro rfl
    simp

theorem opcodeFrom_eq_none {b : BitVec 7} : opcodeFrom b = none ↔ ∀ op : Opcode, b ≠ op.code := by
  rw [Option.eq_none_iff_forall_ne_some]
  exact forall_congr' fun op => not_congr opcodeFrom_eq_some

/-! ## Mnemonics -/

@[simp] theorem mnemonic_add (a b c : RegIdx) : (Instr.add a b c).mnemonic = .add := rfl
@[simp] theorem mnemonic_sub (a b c : RegIdx) : (Instr.sub a b c).mnemonic = .sub := rfl
@[simp] theorem mnemonic_and (a b c : RegIdx) : (Instr.and a b c).mnemonic = .and := rfl
@[simp] theorem mnemonic_or (a b c : RegIdx) : (Instr.or a b c).mnemonic = .or := rfl
@[simp] theorem mnemonic_slt (a b c : RegIdx) : (Instr.slt a b c).mnemonic = .slt := rfl
@[simp] theorem mnemonic_lw (a b : RegIdx) (c : Word) : (Instr.lw a b c).mnemonic = .lw := rfl
@[simp] theorem mnemonic_addi (a b : RegIdx) (c : Word) : (Instr.addi a b c).mnemonic = .addi := rfl
@[simp] theorem mnemonic_andi (a b : RegIdx) (c : Word) : (Instr.andi a b c).mnemonic = .andi := rfl
@[simp] theorem mnemonic_ori (a b : RegIdx) (c : Word) : (Instr.ori a b c).mnemonic = .ori := rfl
@[simp] theorem mnemonic_jalr (a b : RegIdx) (c : Word) : (Instr.jalr a b c).mnemonic = .jalr := rfl
@[simp] theorem mnemonic_sw (a b : RegIdx) (c : Word) : (Instr.sw a b c).mnemonic = .sw := rfl
@[simp] theorem mnemonic_beq (a b : RegIdx) (c : Word) : (Instr.beq a b c).mnemonic = .beq := rfl
@[simp] theorem mnemonic_jal (a : RegIdx) (c : Word) : (Instr.jal a c).mnemonic = .jal := rfl

/-! ## Fields of an encoded word -/

/-- Six fields of an R-shaped word: each is read back from its place. -/
theorem fields_of_append (f7 : BitVec 7) (rs2 rs1 : RegIdx) (f3 : BitVec 3) (rd : RegIdx) (op : BitVec 7) :
    let w : Word := f7 ++ rs2 ++ rs1 ++ f3 ++ rd ++ op
    opcodeOf w = op ∧ rdOf w = rd ∧ funct3Of w = f3 ∧ rs1Of w = rs1 ∧ rs2Of w = rs2 ∧ funct7Of w = f7 := by
  refine ⟨?_, ?_, ?_, ?_, ?_, ?_⟩ <;>
    simp only [opcodeOf, rdOf, funct3Of, rs1Of, rs2Of, funct7Of] <;>
    (apply BitVec.eq_of_getLsbD_eq
     intro i hi
     simp only [BitVec.getLsbD_extractLsb', BitVec.getLsbD_append, hi, decide_true, Bool.true_and])
  all_goals interval_cases i <;> simp

/-- A word is its six R-shaped fields. -/
theorem append_of_fields (w : Word) :
    funct7Of w ++ rs2Of w ++ rs1Of w ++ funct3Of w ++ rdOf w ++ opcodeOf w = w := by
  apply BitVec.eq_of_getLsbD_eq
  intro i hi
  simp only [opcodeOf, rdOf, funct3Of, rs1Of, rs2Of, funct7Of, BitVec.getLsbD_extractLsb', BitVec.getLsbD_append]
  interval_cases i <;> simp

/-! ## Immediates through an encoded word -/

theorem immIOf_encodeI (op : Opcode) (f3 : BitVec 3) (rd rs1 : RegIdx) (imm : Word) :
    immIOf (encodeI op f3 rd rs1 imm) = (imm.extractLsb' 0 12).signExtend 32 := by
  unfold immIOf encodeI
  congr 1
  apply BitVec.eq_of_getLsbD_eq
  intro i hi
  simp only [BitVec.getLsbD_extractLsb', BitVec.getLsbD_append]
  interval_cases i <;> simp

theorem immSOf_encodeS (f3 : BitVec 3) (rs1 rs2 : RegIdx) (imm : Word) :
    immSOf (encodeS f3 rs1 rs2 imm) = (imm.extractLsb' 0 12).signExtend 32 := by
  unfold immSOf encodeS
  congr 1
  apply BitVec.eq_of_getLsbD_eq
  intro i hi
  simp only [BitVec.getLsbD_extractLsb', BitVec.getLsbD_append]
  interval_cases i <;> simp

theorem immSBOf_encodeSB (f3 : BitVec 3) (rs1 rs2 : RegIdx) (off : Word) :
    immSBOf (encodeSB f3 rs1 rs2 off) = (off.extractLsb' 1 12 ++ 0#1 : BitVec 13).signExtend 32 := by
  unfold immSBOf encodeSB
  congr 1
  apply BitVec.eq_of_getLsbD_eq
  intro i hi
  simp only [BitVec.getLsbD_extractLsb', BitVec.getLsbD_append]
  interval_cases i <;> simp

theorem immUJOf_encodeUJ (rd : RegIdx) (off : Word) :
    immUJOf (encodeUJ rd off) = (off.extractLsb' 1 20 ++ 0#1 : BitVec 21).signExtend 32 := by
  unfold immUJOf encodeUJ
  congr 1
  apply BitVec.eq_of_getLsbD_eq
  intro i hi
  simp only [BitVec.getLsbD_extractLsb', BitVec.getLsbD_append]
  interval_cases i <;> simp

/-- A word whose signed value fits `n` bits is its low `n` bits sign-extended. -/
theorem signExtend_low_eq {n : Nat} (hn : n ≤ 32) (hpos : 0 < n) (imm : Word) (hlo : -(2 ^ (n - 1)) ≤ imm.toInt)
    (hhi : imm.toInt < 2 ^ (n - 1)) : (imm.extractLsb' 0 n).signExtend 32 = imm := by
  apply BitVec.eq_of_toInt_eq
  have h2 : (2 : Int) ^ n = 2 * 2 ^ (n - 1) := by rw [← pow_succ', Nat.sub_add_cancel hpos]
  have hcast : ((2 ^ n : Nat) : Int) = 2 ^ n := by push_cast; rfl
  have hlow : ((imm.toNat : Int)).bmod (2 ^ n) = imm.toInt.bmod (2 ^ n) := by
    rw [BitVec.toInt_eq_toNat_bmod, Int.bmod_bmod_of_dvd (Nat.pow_dvd_pow 2 hn)]
  rw [BitVec.toInt_signExtend_of_le hn, ← BitVec.setWidth_eq_extractLsb' hn, BitVec.toInt_setWidth, hlow]
  apply Int.bmod_eq_of_le <;> rw [hcast] <;> omega

/-- An even word's offset fields with the forced 0 are its low bits. -/
theorem offset13_eq (off : Word) (h : off.getLsbD 0 = false) :
    (off.extractLsb' 1 12 ++ 0#1 : BitVec 13) = off.extractLsb' 0 13 := by
  apply BitVec.eq_of_getLsbD_eq
  intro i hi
  simp only [BitVec.getLsbD_extractLsb', BitVec.getLsbD_append]
  interval_cases i <;> simp_all

theorem offset21_eq (off : Word) (h : off.getLsbD 0 = false) :
    (off.extractLsb' 1 20 ++ 0#1 : BitVec 21) = off.extractLsb' 0 21 := by
  apply BitVec.eq_of_getLsbD_eq
  intro i hi
  simp only [BitVec.getLsbD_extractLsb', BitVec.getLsbD_append]
  interval_cases i <;> simp_all

theorem imm12_roundtrip {imm : Word} (h : imm12Fits imm = true) : (imm.extractLsb' 0 12).signExtend 32 = imm := by
  simp only [imm12Fits, Bool.and_eq_true, decide_eq_true_eq] at h
  exact signExtend_low_eq (by omega) (by omega) imm (by norm_num; omega) (by norm_num; omega)

theorem offset13_roundtrip {off : Word} (h : offset13Fits off = true) :
    (off.extractLsb' 1 12 ++ 0#1 : BitVec 13).signExtend 32 = off := by
  simp only [offset13Fits, Bool.and_eq_true, decide_eq_true_eq, Bool.not_eq_true'] at h
  rw [offset13_eq off h.2]
  exact signExtend_low_eq (by omega) (by omega) off (by norm_num; omega) (by norm_num; omega)

theorem offset21_roundtrip {off : Word} (h : offset21Fits off = true) :
    (off.extractLsb' 1 20 ++ 0#1 : BitVec 21).signExtend 32 = off := by
  simp only [offset21Fits, Bool.and_eq_true, decide_eq_true_eq, Bool.not_eq_true'] at h
  rw [offset21_eq off h.2]
  exact signExtend_low_eq (by omega) (by omega) off (by norm_num; omega) (by norm_num; omega)

/-- A sign-extended `n`-bit field lies in the signed range of `n` bits. -/
theorem signExtend_bounds {n : Nat} (hn : n ≤ 32) (f : BitVec n) :
    -(2 ^ (n - 1)) ≤ (f.signExtend 32).toInt ∧ (f.signExtend 32).toInt < 2 ^ (n - 1) := by
  rw [BitVec.toInt_signExtend_of_le hn]
  exact ⟨BitVec.le_toInt f, BitVec.toInt_lt⟩

/-- A word with bit 0 clear has an even signed value. -/
theorem toInt_even (w : Word) (h : w.getLsbD 0 = false) : w.toInt % 2 = 0 := by
  have h1 : w.toNat % 2 = 0 := by
    have := BitVec.getLsbD (x := w) (i := 0)
    rw [BitVec.getLsbD, Nat.testBit_zero] at h
    simpa using h
  rw [BitVec.toInt_eq_toNat_cond]
  split <;> push_cast <;> omega

theorem imm12Fits_immIOf (w : Word) : imm12Fits (immIOf w) = true := by
  have := signExtend_bounds (by omega) (w.extractLsb' 20 12)
  simp only [imm12Fits, Bool.and_eq_true, decide_eq_true_eq]
  unfold immIOf
  norm_num at this
  omega

theorem imm12Fits_immSOf (w : Word) : imm12Fits (immSOf w) = true := by
  have := signExtend_bounds (by omega) (w.extractLsb' 25 7 ++ w.extractLsb' 7 5 : BitVec 12)
  simp only [imm12Fits, Bool.and_eq_true, decide_eq_true_eq]
  unfold immSOf
  norm_num at this
  omega

theorem immSBOf_bit0 (w : Word) : (immSBOf w).getLsbD 0 = false := by
  simp only [immSBOf, BitVec.getLsbD_signExtend, BitVec.getLsbD_append]
  simp

theorem immUJOf_bit0 (w : Word) : (immUJOf w).getLsbD 0 = false := by
  simp only [immUJOf, BitVec.getLsbD_signExtend, BitVec.getLsbD_append]
  simp

theorem offset13Fits_immSBOf (w : Word) : offset13Fits (immSBOf w) = true := by
  have h := signExtend_bounds (by omega)
    (w.extractLsb' 31 1 ++ w.extractLsb' 7 1 ++ w.extractLsb' 25 6 ++ w.extractLsb' 8 4 ++ 0#1 : BitVec 13)
  have h2 := toInt_even _ (immSBOf_bit0 w)
  simp only [offset13Fits, immSBOf_bit0, Bool.and_eq_true, decide_eq_true_eq, Bool.not_false, and_true]
  unfold immSBOf at h2 ⊢
  norm_num at h
  omega

theorem offset21Fits_immUJOf (w : Word) : offset21Fits (immUJOf w) = true := by
  have h := signExtend_bounds (by omega)
    (w.extractLsb' 31 1 ++ w.extractLsb' 12 8 ++ w.extractLsb' 20 1 ++ w.extractLsb' 21 10 ++ 0#1 : BitVec 21)
  have h2 := toInt_even _ (immUJOf_bit0 w)
  simp only [offset21Fits, immUJOf_bit0, Bool.and_eq_true, decide_eq_true_eq, Bool.not_false, and_true]
  unfold immUJOf at h2 ⊢
  norm_num at h
  omega

/-! ## A word from its fields -/

theorem encodeR_of_fields (w : Word) (h : opcodeOf w = Opcode.code .rType) :
    encodeR (funct7Of w) (funct3Of w) (rdOf w) (rs1Of w) (rs2Of w) = w := by
  rw [encodeR, ← h, append_of_fields]

theorem encodeI_of_fields (w : Word) (op : Opcode) (h : opcodeOf w = op.code) :
    encodeI op (funct3Of w) (rdOf w) (rs1Of w) (immIOf w) = w := by
  rw [encodeI, ← h]
  apply BitVec.eq_of_getLsbD_eq
  intro i hi
  simp only [opcodeOf, rdOf, funct3Of, rs1Of, immIOf, BitVec.getLsbD_extractLsb', BitVec.getLsbD_append,
    BitVec.getLsbD_signExtend]
  interval_cases i <;> simp

theorem encodeS_of_fields (w : Word) (h : opcodeOf w = Opcode.code .sw) :
    encodeS (funct3Of w) (rs1Of w) (rs2Of w) (immSOf w) = w := by
  rw [encodeS, ← h]
  apply BitVec.eq_of_getLsbD_eq
  intro i hi
  simp only [opcodeOf, rs2Of, funct3Of, rs1Of, immSOf, BitVec.getLsbD_extractLsb', BitVec.getLsbD_append,
    BitVec.getLsbD_signExtend]
  interval_cases i <;> simp

theorem encodeSB_of_fields (w : Word) (h : opcodeOf w = Opcode.code .beq) :
    encodeSB (funct3Of w) (rs1Of w) (rs2Of w) (immSBOf w) = w := by
  rw [encodeSB, ← h]
  apply BitVec.eq_of_getLsbD_eq
  intro i hi
  simp only [opcodeOf, rs2Of, funct3Of, rs1Of, immSBOf, BitVec.getLsbD_extractLsb', BitVec.getLsbD_append,
    BitVec.getLsbD_signExtend]
  interval_cases i <;> simp

theorem encodeUJ_of_fields (w : Word) (h : opcodeOf w = Opcode.code .jal) : encodeUJ (rdOf w) (immUJOf w) = w := by
  rw [encodeUJ, ← h]
  apply BitVec.eq_of_getLsbD_eq
  intro i hi
  simp only [opcodeOf, rdOf, immUJOf, BitVec.getLsbD_extractLsb', BitVec.getLsbD_append, BitVec.getLsbD_signExtend]
  interval_cases i <;> simp

/-! ## What the decoder accepts -/

theorem bits_eq_of_and (w mask m : Word) (h : w &&& mask = m) (k n : Nat) (hm : mask.extractLsb' k n = BitVec.allOnes n) :
    w.extractLsb' k n = m.extractLsb' k n := by
  rw [← h]
  apply BitVec.eq_of_getLsbD_eq
  intro i hi
  have := congrArg (fun b => b.getLsbD i) hm
  simp only [BitVec.getLsbD_extractLsb', BitVec.getLsbD_allOnes, hi, decide_true, Bool.true_and] at this
  simp only [BitVec.getLsbD_extractLsb', BitVec.getLsbD_and, hi, decide_true, Bool.true_and, this, Bool.and_true]

theorem and_mask_opcode (w : Word) (op : BitVec 7) : w &&& 0x0000007F#32 = 0#25 ++ op ↔ opcodeOf w = op := by
  constructor
  · intro h
    have := bits_eq_of_and _ _ _ h 0 7 (by decide)
    rw [opcodeOf, this]
    apply BitVec.eq_of_getLsbD_eq
    intro i hi
    simp only [BitVec.getLsbD_extractLsb', BitVec.getLsbD_append]
    interval_cases i <;> simp
  · rintro rfl
    apply BitVec.eq_of_getLsbD_eq
    intro i hi
    simp only [opcodeOf, BitVec.getLsbD_extractLsb', BitVec.getLsbD_append, BitVec.getLsbD_and]
    interval_cases i <;> simp

theorem and_mask_funct3 (w : Word) (f3 : BitVec 3) (op : BitVec 7) :
    w &&& 0x0000707F#32 = 0#17 ++ f3 ++ 0#5 ++ op ↔ opcodeOf w = op ∧ funct3Of w = f3 := by
  constructor
  · intro h
    have h0 := bits_eq_of_and _ _ _ h 0 7 (by decide)
    have h1 := bits_eq_of_and _ _ _ h 12 3 (by decide)
    rw [opcodeOf, funct3Of, h0, h1]
    constructor <;>
      (apply BitVec.eq_of_getLsbD_eq
       intro i hi
       simp only [BitVec.getLsbD_extractLsb', BitVec.getLsbD_append]
       interval_cases i <;> simp)
  · rintro ⟨rfl, rfl⟩
    apply BitVec.eq_of_getLsbD_eq
    intro i hi
    simp only [opcodeOf, funct3Of, BitVec.getLsbD_extractLsb', BitVec.getLsbD_append, BitVec.getLsbD_and]
    interval_cases i <;> simp

theorem and_mask_funct7 (w : Word) (f7 : BitVec 7) (f3 : BitVec 3) (op : BitVec 7) :
    w &&& 0xFE00707F#32 = f7 ++ 0#10 ++ f3 ++ 0#5 ++ op ↔ opcodeOf w = op ∧ funct3Of w = f3 ∧ funct7Of w = f7 := by
  constructor
  · intro h
    have h0 := bits_eq_of_and _ _ _ h 0 7 (by decide)
    have h1 := bits_eq_of_and _ _ _ h 12 3 (by decide)
    have h2 := bits_eq_of_and _ _ _ h 25 7 (by decide)
    rw [opcodeOf, funct3Of, funct7Of, h0, h1, h2]
    refine ⟨?_, ?_, ?_⟩ <;>
      (apply BitVec.eq_of_getLsbD_eq
       intro i hi
       simp only [BitVec.getLsbD_extractLsb', BitVec.getLsbD_append]
       interval_cases i <;> simp)
  · rintro ⟨rfl, rfl, rfl⟩
    apply BitVec.eq_of_getLsbD_eq
    intro i hi
    simp only [opcodeOf, funct3Of, funct7Of, BitVec.getLsbD_extractLsb', BitVec.getLsbD_append, BitVec.getLsbD_and]
    interval_cases i <;> simp

/-- The bits that select a row, read as fields (R65). -/
def Mnemonic.keyHolds (m : Mnemonic) (w : Word) : Prop :=
  match m with
  | .add => opcodeOf w = Opcode.code .rType ∧ funct3Of w = 0b000#3 ∧ funct7Of w = 0b0000000#7
  | .sub => opcodeOf w = Opcode.code .rType ∧ funct3Of w = 0b000#3 ∧ funct7Of w = 0b0100000#7
  | .and => opcodeOf w = Opcode.code .rType ∧ funct3Of w = 0b111#3 ∧ funct7Of w = 0b0000000#7
  | .or => opcodeOf w = Opcode.code .rType ∧ funct3Of w = 0b110#3 ∧ funct7Of w = 0b0000000#7
  | .slt => opcodeOf w = Opcode.code .rType ∧ funct3Of w = 0b010#3 ∧ funct7Of w = 0b0000000#7
  | .lw => opcodeOf w = Opcode.code .lw ∧ funct3Of w = 0b010#3
  | .addi => opcodeOf w = Opcode.code .iArith ∧ funct3Of w = 0b000#3
  | .andi => opcodeOf w = Opcode.code .iArith ∧ funct3Of w = 0b111#3
  | .ori => opcodeOf w = Opcode.code .iArith ∧ funct3Of w = 0b110#3
  | .jalr => opcodeOf w = Opcode.code .jalr ∧ funct3Of w = 0b000#3
  | .sw => opcodeOf w = Opcode.code .sw ∧ funct3Of w = 0b010#3
  | .beq => opcodeOf w = Opcode.code .beq ∧ funct3Of w = 0b000#3
  | .jal => opcodeOf w = Opcode.code .jal

theorem selects_iff (m : Mnemonic) (w : Word) : m.Selects w ↔ m.keyHolds w := by
  cases m with
  | add => exact and_mask_funct7 w 0b0000000#7 0b000#3 (Opcode.code .rType)
  | sub => exact and_mask_funct7 w 0b0100000#7 0b000#3 (Opcode.code .rType)
  | and => exact and_mask_funct7 w 0b0000000#7 0b111#3 (Opcode.code .rType)
  | or => exact and_mask_funct7 w 0b0000000#7 0b110#3 (Opcode.code .rType)
  | slt => exact and_mask_funct7 w 0b0000000#7 0b010#3 (Opcode.code .rType)
  | lw => exact and_mask_funct3 w 0b010#3 (Opcode.code .lw)
  | addi => exact and_mask_funct3 w 0b000#3 (Opcode.code .iArith)
  | andi => exact and_mask_funct3 w 0b111#3 (Opcode.code .iArith)
  | ori => exact and_mask_funct3 w 0b110#3 (Opcode.code .iArith)
  | jalr => exact and_mask_funct3 w 0b000#3 (Opcode.code .jalr)
  | sw => exact and_mask_funct3 w 0b010#3 (Opcode.code .sw)
  | beq => exact and_mask_funct3 w 0b000#3 (Opcode.code .beq)
  | jal => exact and_mask_opcode w (Opcode.code .jal)

/-- The instruction of a row whose fields are the word's. -/
def instrOfWord (m : Mnemonic) (w : Word) : Instr :=
  match m with
  | .add => .add (rdOf w) (rs1Of w) (rs2Of w)
  | .sub => .sub (rdOf w) (rs1Of w) (rs2Of w)
  | .and => .and (rdOf w) (rs1Of w) (rs2Of w)
  | .or => .or (rdOf w) (rs1Of w) (rs2Of w)
  | .slt => .slt (rdOf w) (rs1Of w) (rs2Of w)
  | .lw => .lw (rdOf w) (rs1Of w) (immIOf w)
  | .addi => .addi (rdOf w) (rs1Of w) (immIOf w)
  | .andi => .andi (rdOf w) (rs1Of w) (immIOf w)
  | .ori => .ori (rdOf w) (rs1Of w) (immIOf w)
  | .jalr => .jalr (rdOf w) (rs1Of w) (immIOf w)
  | .sw => .sw (rs2Of w) (rs1Of w) (immSOf w)
  | .beq => .beq (rs1Of w) (rs2Of w) (immSBOf w)
  | .jal => .jal (rdOf w) (immUJOf w)

@[simp] theorem mnemonic_instrOfWord (m : Mnemonic) (w : Word) : (instrOfWord m w).mnemonic = m := by cases m <;> rfl

theorem decode_of_keyHolds {m : Mnemonic} {w : Word} (h : m.keyHolds w) : decode w = .ok (instrOfWord m w) := by
  cases m <;> simp only [Mnemonic.keyHolds] at h <;>
    simp [decode, decodeR, decodeLoad, decodeIArith, decodeJalr, decodeStore, decodeBranch, h, instrOfWord]

theorem keyHolds_of_decode {w : Word} {i : Instr} (h : decode w = .ok i) :
    i.mnemonic.keyHolds w ∧ i = instrOfWord i.mnemonic w := by
  unfold decode at h
  split at h
  · cases h
  all_goals
    rename_i hop
    rw [opcodeFrom_eq_some] at hop
    try simp only [decodeR, decodeLoad, decodeIArith, decodeJalr, decodeStore, decodeBranch] at h
    repeat' split at h
    all_goals cases h
    all_goals simp_all [Instr.mnemonic, Instr.record, recordR, recordI, Mnemonic.keyHolds, instrOfWord]

/-- Everything the decoder accepts (R59): the row the word's selecting bits name, with the word's fields. -/
theorem decode_eq_ok_iff {w : Word} {i : Instr} :
    decode w = .ok i ↔ i.mnemonic.Selects w ∧ i = instrOfWord i.mnemonic w := by
  rw [selects_iff]
  refine ⟨keyHolds_of_decode, fun ⟨hk, hi⟩ => ?_⟩
  rw [decode_of_keyHolds hk, ← hi]

/-- What decodes is well-formed: its immediate is in the range of its field. -/
theorem wellFormed_instrOfWord (m : Mnemonic) (w : Word) : (instrOfWord m w).WellFormed := by
  cases m <;> simp [instrOfWord, Instr.WellFormed, Instr.wellFormed, imm12Fits_immIOf, imm12Fits_immSOf, offset13Fits_immSBOf,
    offset21Fits_immUJOf]

/-- The fields of a word of each row encode the word again. -/
theorem encode_instrOfWord {m : Mnemonic} {w : Word} (h : m.keyHolds w) : encode (instrOfWord m w) = w := by
  cases m <;> simp only [Mnemonic.keyHolds] at h
  case add => simpa only [instrOfWord, encode, h] using encodeR_of_fields w h.1
  case sub => simpa only [instrOfWord, encode, h] using encodeR_of_fields w h.1
  case and => simpa only [instrOfWord, encode, h] using encodeR_of_fields w h.1
  case or => simpa only [instrOfWord, encode, h] using encodeR_of_fields w h.1
  case slt => simpa only [instrOfWord, encode, h] using encodeR_of_fields w h.1
  case lw => simpa only [instrOfWord, encode, h] using encodeI_of_fields w .lw h.1
  case addi => simpa only [instrOfWord, encode, h] using encodeI_of_fields w .iArith h.1
  case andi => simpa only [instrOfWord, encode, h] using encodeI_of_fields w .iArith h.1
  case ori => simpa only [instrOfWord, encode, h] using encodeI_of_fields w .iArith h.1
  case jalr => simpa only [instrOfWord, encode, h] using encodeI_of_fields w .jalr h.1
  case sw => simpa only [instrOfWord, encode, h] using encodeS_of_fields w h.1
  case beq => simpa only [instrOfWord, encode, h] using encodeSB_of_fields w h.1
  case jal => exact encodeUJ_of_fields w h

/-! ## Fields of each format's encoding -/

theorem fields_encodeR (f7 : BitVec 7) (f3 : BitVec 3) (rd rs1 rs2 : RegIdx) :
    let w := encodeR f7 f3 rd rs1 rs2
    opcodeOf w = Opcode.code .rType ∧ rdOf w = rd ∧ funct3Of w = f3 ∧ rs1Of w = rs1 ∧ rs2Of w = rs2 ∧ funct7Of w = f7 :=
  fields_of_append f7 rs2 rs1 f3 rd (Opcode.code .rType)

theorem fields_encodeI (op : Opcode) (f3 : BitVec 3) (rd rs1 : RegIdx) (imm : Word) :
    let w := encodeI op f3 rd rs1 imm
    opcodeOf w = op.code ∧ rdOf w = rd ∧ funct3Of w = f3 ∧ rs1Of w = rs1 := by
  refine ⟨?_, ?_, ?_, ?_⟩ <;> simp only [opcodeOf, rdOf, funct3Of, rs1Of, encodeI] <;>
    (apply BitVec.eq_of_getLsbD_eq
     intro i hi
     simp only [BitVec.getLsbD_extractLsb', BitVec.getLsbD_append]
     interval_cases i <;> simp)

theorem fields_encodeS (f3 : BitVec 3) (rs1 rs2 : RegIdx) (imm : Word) :
    let w := encodeS f3 rs1 rs2 imm
    opcodeOf w = Opcode.code .sw ∧ funct3Of w = f3 ∧ rs1Of w = rs1 ∧ rs2Of w = rs2 := by
  refine ⟨?_, ?_, ?_, ?_⟩ <;> simp only [opcodeOf, funct3Of, rs1Of, rs2Of, encodeS] <;>
    (apply BitVec.eq_of_getLsbD_eq
     intro i hi
     simp only [BitVec.getLsbD_extractLsb', BitVec.getLsbD_append]
     interval_cases i <;> simp)

theorem fields_encodeSB (f3 : BitVec 3) (rs1 rs2 : RegIdx) (off : Word) :
    let w := encodeSB f3 rs1 rs2 off
    opcodeOf w = Opcode.code .beq ∧ funct3Of w = f3 ∧ rs1Of w = rs1 ∧ rs2Of w = rs2 := by
  refine ⟨?_, ?_, ?_, ?_⟩ <;> simp only [opcodeOf, funct3Of, rs1Of, rs2Of, encodeSB] <;>
    (apply BitVec.eq_of_getLsbD_eq
     intro i hi
     simp only [BitVec.getLsbD_extractLsb', BitVec.getLsbD_append]
     interval_cases i <;> simp)

theorem fields_encodeUJ (rd : RegIdx) (off : Word) :
    let w := encodeUJ rd off
    opcodeOf w = Opcode.code .jal ∧ rdOf w = rd := by
  refine ⟨?_, ?_⟩ <;> simp only [opcodeOf, rdOf, encodeUJ] <;>
    (apply BitVec.eq_of_getLsbD_eq
     intro i hi
     simp only [BitVec.getLsbD_extractLsb', BitVec.getLsbD_append]
     interval_cases i <;> simp)

end Sys2Proof
end

