-- ==== Sys2Proof/Laws/PerInstr.lean ====
section
/-! SUPPORT. The per-instruction family EncodeSelects: the word of every instruction selects its own row of the opcode table
(R65), whatever its operands are. -/

namespace Sys2Proof.Laws.EncodeSelects

/-- The encoded word has the selecting bits of the instruction's row. -/
def Statement (i : Instr) : Prop := i.mnemonic.Selects (encode i)

theorem add (rd rs1 rs2 : RegIdx) : Statement (.add rd rs1 rs2) :=
  have h := fields_encodeR 0b0000000#7 0b000#3 rd rs1 rs2
  (selects_iff .add _).mpr ⟨h.1, h.2.2.1, h.2.2.2.2.2⟩

theorem sub (rd rs1 rs2 : RegIdx) : Statement (.sub rd rs1 rs2) :=
  have h := fields_encodeR 0b0100000#7 0b000#3 rd rs1 rs2
  (selects_iff .sub _).mpr ⟨h.1, h.2.2.1, h.2.2.2.2.2⟩

theorem and (rd rs1 rs2 : RegIdx) : Statement (.and rd rs1 rs2) :=
  have h := fields_encodeR 0b0000000#7 0b111#3 rd rs1 rs2
  (selects_iff .and _).mpr ⟨h.1, h.2.2.1, h.2.2.2.2.2⟩

theorem or (rd rs1 rs2 : RegIdx) : Statement (.or rd rs1 rs2) :=
  have h := fields_encodeR 0b0000000#7 0b110#3 rd rs1 rs2
  (selects_iff .or _).mpr ⟨h.1, h.2.2.1, h.2.2.2.2.2⟩

theorem slt (rd rs1 rs2 : RegIdx) : Statement (.slt rd rs1 rs2) :=
  have h := fields_encodeR 0b0000000#7 0b010#3 rd rs1 rs2
  (selects_iff .slt _).mpr ⟨h.1, h.2.2.1, h.2.2.2.2.2⟩

theorem lw (rd rs1 : RegIdx) (imm : Word) : Statement (.lw rd rs1 imm) :=
  have h := fields_encodeI .lw 0b010#3 rd rs1 imm
  (selects_iff .lw _).mpr ⟨h.1, h.2.2.1⟩

theorem addi (rd rs1 : RegIdx) (imm : Word) : Statement (.addi rd rs1 imm) :=
  have h := fields_encodeI .iArith 0b000#3 rd rs1 imm
  (selects_iff .addi _).mpr ⟨h.1, h.2.2.1⟩

theorem andi (rd rs1 : RegIdx) (imm : Word) : Statement (.andi rd rs1 imm) :=
  have h := fields_encodeI .iArith 0b111#3 rd rs1 imm
  (selects_iff .andi _).mpr ⟨h.1, h.2.2.1⟩

theorem ori (rd rs1 : RegIdx) (imm : Word) : Statement (.ori rd rs1 imm) :=
  have h := fields_encodeI .iArith 0b110#3 rd rs1 imm
  (selects_iff .ori _).mpr ⟨h.1, h.2.2.1⟩

theorem jalr (rd rs1 : RegIdx) (imm : Word) : Statement (.jalr rd rs1 imm) :=
  have h := fields_encodeI .jalr 0b000#3 rd rs1 imm
  (selects_iff .jalr _).mpr ⟨h.1, h.2.2.1⟩

theorem sw (rs2 rs1 : RegIdx) (imm : Word) : Statement (.sw rs2 rs1 imm) :=
  have h := fields_encodeS 0b010#3 rs1 rs2 imm
  (selects_iff .sw _).mpr ⟨h.1, h.2.1⟩

theorem beq (rs1 rs2 : RegIdx) (off : Word) : Statement (.beq rs1 rs2 off) :=
  have h := fields_encodeSB 0b000#3 rs1 rs2 off
  (selects_iff .beq _).mpr ⟨h.1, h.2.1⟩

theorem jal (rd : RegIdx) (off : Word) : Statement (.jal rd off) :=
  (selects_iff .jal _).mpr (fields_encodeUJ rd off).1

end Sys2Proof.Laws.EncodeSelects
end

