-- ==== Sys2Proof/Laws/Step.lean ====
section
/-! SUPPORT. What one instruction and one step can do, said once (`exec_cases`, `step_cases`), and induction along a run. -/

namespace Sys2Proof.Machine

/-! ## exec -/

/-- lw, in its two outcomes. -/
theorem execLw_cases (rd rs1 : RegIdx) (imm : Word) (s : State) :
    (s.Accessible (s.getReg rs1 + imm) ∧ execLw rd rs1 imm s =
      .next ((s.setReg rd (s.mem.readWord (s.getReg rs1 + imm).toNat)).retire (s.pc + 4#32))) ∨
    (∃ k, execLw rd rs1 imm s = .next (s.raiseError k (some (encode (.lw rd rs1 imm))) .memory) ∧
      ((s.getReg rs1 + imm).toNat % 4 ≠ 0 → k = .unalignedAccessError) ∧
      ((s.getReg rs1 + imm).toNat % 4 = 0 →
        4 * s.memWords ≤ (s.getReg rs1 + imm).toNat ∧ k = .outOfRangeAccessError)) := by
  rcases memRead_cases s (s.getReg rs1 + imm) with ⟨ha, h⟩ | ⟨ha, h⟩ | ⟨ha, hr, h⟩
  · exact .inl ⟨ha, by rw [execLw, effAddr_eq, h]; rfl⟩
  · exact .inr ⟨_, by rw [execLw, effAddr_eq, h], fun _ => rfl, fun hc => absurd hc ha⟩
  · exact .inr ⟨_, by rw [execLw, effAddr_eq, h], fun hc => absurd ha hc, fun _ => ⟨hr, rfl⟩⟩

/-- sw, in its two outcomes. -/
theorem execSw_cases (rs2 rs1 : RegIdx) (imm : Word) (s : State) :
    (s.Accessible (s.getReg rs1 + imm) ∧ execSw rs2 rs1 imm s =
      .next (({ s with mem := s.mem.writeWord (s.getReg rs1 + imm).toNat (s.getReg rs2) } : State).retire (s.pc + 4#32))) ∨
    (∃ k, execSw rs2 rs1 imm s = .next (s.raiseError k (some (encode (.sw rs2 rs1 imm))) .memory) ∧
      ((s.getReg rs1 + imm).toNat % 4 ≠ 0 → k = .unalignedAccessError) ∧
      ((s.getReg rs1 + imm).toNat % 4 = 0 →
        4 * s.memWords ≤ (s.getReg rs1 + imm).toNat ∧ k = .outOfRangeAccessError)) := by
  rcases memWrite_cases s (s.getReg rs1 + imm) (s.getReg rs2) with ⟨ha, h⟩ | ⟨ha, h⟩ | ⟨ha, hr, h⟩
  · exact .inl ⟨ha, by rw [execSw, effAddr_eq, h]; rfl⟩
  · exact .inr ⟨_, by rw [execSw, effAddr_eq, h], fun _ => rfl, fun hc => absurd hc ha⟩
  · exact .inr ⟨_, by rw [execSw, effAddr_eq, h], fun hc => absurd ha hc, fun _ => ⟨hr, rfl⟩⟩

/-- The next pc of an instruction with a destination register: in sequence, jal's target, or one with bit 0 cleared. -/
def LinkedNextPc (i : Instr) (s : State) (n : Word) : Prop :=
  n = s.pc + 4#32 ∨ (∃ rd off, i = .jal rd off ∧ n = s.pc + off) ∨ ∃ x : Word, n = x &&& 0xFFFFFFFE#32

/-- Everything an instruction can do. -/
theorem exec_cases {i : Instr} {s t : State} (h : exec i s = .next t) :
    (∃ rd v n, i.record.rd = some rd ∧ i.mnemonic ≠ .sw ∧ LinkedNextPc i s n ∧ t = (s.setReg rd v).retire n) ∨
    (∃ rs1 rs2 off n, i = .beq rs1 rs2 off ∧ (n = s.pc + off ∨ n = s.pc + 4#32) ∧ t = s.retire n) ∨
    (∃ rs2 rs1 imm, i = .sw rs2 rs1 imm ∧ s.Accessible (s.getReg rs1 + imm) ∧
      t = ({ s with mem := s.mem.writeWord (s.getReg rs1 + imm).toNat (s.getReg rs2) } : State).retire (s.pc + 4#32)) ∨
    (∃ rs1 imm k, i.record.rs1 = some rs1 ∧ i.record.imm = some imm ∧ (i.mnemonic = .lw ∨ i.mnemonic = .sw) ∧
      t = s.raiseError k (some (encode i)) .memory ∧
      ((s.getReg rs1 + imm).toNat % 4 ≠ 0 → k = .unalignedAccessError) ∧
      ((s.getReg rs1 + imm).toNat % 4 = 0 →
        4 * s.memWords ≤ (s.getReg rs1 + imm).toNat ∧ k = .outOfRangeAccessError)) := by
  cases i with
  | add rd rs1 rs2 => cases h; exact .inl ⟨rd, _, _, rfl, by simp, .inl rfl, rfl⟩
  | sub rd rs1 rs2 => cases h; exact .inl ⟨rd, _, _, rfl, by simp, .inl rfl, rfl⟩
  | and rd rs1 rs2 => cases h; exact .inl ⟨rd, _, _, rfl, by simp, .inl rfl, rfl⟩
  | or rd rs1 rs2 => cases h; exact .inl ⟨rd, _, _, rfl, by simp, .inl rfl, rfl⟩
  | slt rd rs1 rs2 => cases h; exact .inl ⟨rd, _, _, rfl, by simp, .inl rfl, rfl⟩
  | addi rd rs1 imm => cases h; exact .inl ⟨rd, _, _, rfl, by simp, .inl rfl, rfl⟩
  | andi rd rs1 imm => cases h; exact .inl ⟨rd, _, _, rfl, by simp, .inl rfl, rfl⟩
  | ori rd rs1 imm => cases h; exact .inl ⟨rd, _, _, rfl, by simp, .inl rfl, rfl⟩
  | jal rd off =>
    cases h; exact .inl ⟨rd, _, _, rfl, by simp, .inr (.inl ⟨rd, off, rfl, rfl⟩), rfl⟩
  | jalr rd rs1 imm =>
    cases h; exact .inl ⟨rd, _, _, rfl, by simp, .inr (.inr ⟨_, rfl⟩), rfl⟩
  | beq rs1 rs2 off =>
    cases h
    refine .inr (.inl ⟨rs1, rs2, off, _, rfl, ?_, rfl⟩)
    split
    · exact .inl rfl
    · exact .inr rfl
  | lw rd rs1 imm =>
    change execLw rd rs1 imm s = .next t at h
    rcases execLw_cases rd rs1 imm s with ⟨_, he⟩ | ⟨k, he, h1, h2⟩ <;> rw [he] at h <;> cases h
    · exact .inl ⟨rd, _, _, rfl, by simp, .inl rfl, rfl⟩
    · exact .inr (.inr (.inr ⟨rs1, imm, k, rfl, rfl, .inl rfl, rfl, h1, h2⟩))
  | sw rs2 rs1 imm =>
    change execSw rs2 rs1 imm s = .next t at h
    rcases execSw_cases rs2 rs1 imm s with ⟨ha, he⟩ | ⟨k, he, h1, h2⟩ <;> rw [he] at h <;> cases h
    · exact .inr (.inr (.inl ⟨rs2, rs1, imm, rfl, ha, rfl⟩))
    · exact .inr (.inr (.inr ⟨rs1, imm, k, rfl, rfl, .inr rfl, rfl, h1, h2⟩))

/-! ## step -/

theorem step_of_ended {s : State} (h : s.Ended) : step s = .next s := by
  unfold step
  cases hr : s.run with
  | running => exact absurd hr h
  | haltedNormal => rfl
  | haltedError => rfl

theorem step_of_fetch_error {s : State} {k : ErrorKind} (hr : s.run = .running) (hf : s.fetch = .error k) :
    step s = .next (s.raiseError k none .fetch) := by
  simp only [step, hr, hf]

theorem step_of_exhausted {s : State} (hr : s.run = .running) (hf : s.fetch = .exhausted) :
    step s = .next s.haltNormal := by
  simp only [step, hr, hf]

theorem step_of_decode_error {s : State} {w : Word} {why : DecodeReject} (hr : s.run = .running) (hf : s.fetch = .word w)
    (hd : decode w = .error why) : step s = .next (s.raiseError .decodeError (some w) .decode) := by
  simp only [step, hr, hf, hd]

theorem step_of_decode_ok {s : State} {w : Word} {i : Instr} (hr : s.run = .running) (hf : s.fetch = .word w)
    (hd : decode w = .ok i) : step s = exec i s := by
  simp only [step, hr, hf, hd]

/-- Everything a step can do. -/
theorem step_cases {s t : State} (h : step s = .next t) :
    (s.Ended ∧ t = s) ∨
    (s.run = .running ∧ ∃ k, s.fetch = .error k ∧ t = s.raiseError k none .fetch) ∨
    (s.run = .running ∧ s.fetch = .exhausted ∧ t = s.haltNormal) ∨
    (s.run = .running ∧ ∃ w why, s.fetch = .word w ∧ decode w = .error why ∧
      t = s.raiseError .decodeError (some w) .decode) ∨
    (s.run = .running ∧ ∃ w i, s.fetch = .word w ∧ decode w = .ok i ∧ exec i s = .next t) := by
  by_cases hr : s.run = .running
  · cases hf : s.fetch with
    | error k =>
      rw [step_of_fetch_error hr hf] at h
      cases h
      exact .inr (.inl ⟨hr, k, rfl, rfl⟩)
    | exhausted =>
      rw [step_of_exhausted hr hf] at h
      cases h
      exact .inr (.inr (.inl ⟨hr, rfl, rfl⟩))
    | word w =>
      cases hd : decode w with
      | error why =>
        rw [step_of_decode_error hr hf hd] at h
        cases h
        exact .inr (.inr (.inr (.inl ⟨hr, w, why, rfl, hd, rfl⟩)))
      | ok i =>
        rw [step_of_decode_ok hr hf hd] at h
        exact .inr (.inr (.inr (.inr ⟨hr, w, i, rfl, hd, h⟩)))
  · rw [step_of_ended hr] at h
    cases h
    exact .inl ⟨hr, rfl⟩

/-! ## Runs -/

/-- The first step of a run that answers a next state. -/
theorem run_succ_cases {n : Nat} {s t : State} (h : Host.Core.run core (n + 1) s = .next t) :
    ∃ u, step s = .next u ∧ Host.Core.run core n u = .next t := by
  simp only [Host.Core.run] at h
  split at h
  · next u hu => exact ⟨u, hu, h⟩
  · cases h
  · cases h

theorem run_succ_of_step {n : Nat} {s u : State} (h : step s = .next u) :
    Host.Core.run core (n + 1) s = Host.Core.run core n u := by
  have h' : core.step s = .next u := h
  simp only [Host.Core.run, h']

/-- A relation that holds at a state and itself, and is carried over a step, holds along every run. -/
theorem run_induction {P : State → State → Prop} (hrefl : ∀ s, P s s)
    (hstep : ∀ s u t, step s = .next u → P u t → P s t) :
    ∀ n (s t : State), Host.Core.run core n s = .next t → P s t := by
  intro n
  induction n with
  | zero =>
    intro s t h
    cases h
    exact hrefl s
  | succ n ih =>
    intro s t h
    obtain ⟨u, hu, hr⟩ := run_succ_cases h
    exact hstep s u t hu (ih u t hr)

end Sys2Proof.Machine
end

