-- ==== Sys2Proof/Tests/Slice0.lean ====
section
/-! SUPPORT. Tests. The expected values are those of 95_test_vectors.md (the vector's id stands in the test's comment) or of the
spec's worked examples, and the words are the spec's. The last part shows, for every statement with hypotheses, a concrete
state and operands that meet them. -/

namespace Sys2Proof.Tests

open Sys2Proof Sys2Proof.Machine

/-! ## WellFormed refuses an ill-formed term, one for each check -/

theorem test_imm12_above_range : (Instr.addi 1#5 0#5 2048#32).wellFormed = false := by decide
theorem test_imm12_below_range : (Instr.sw 1#5 0#5 (BitVec.ofInt 32 (-2049))).wellFormed = false := by decide
theorem test_offset13_above_range : (Instr.beq 1#5 0#5 4096#32).wellFormed = false := by decide
theorem test_offset13_below_range : (Instr.beq 1#5 0#5 (BitVec.ofInt 32 (-4098))).wellFormed = false := by decide
theorem test_offset13_odd : (Instr.beq 1#5 0#5 9#32).wellFormed = false := by decide
theorem test_offset21_above_range : (Instr.jal 1#5 1048576#32).wellFormed = false := by decide
theorem test_offset21_below_range : (Instr.jal 1#5 (BitVec.ofInt 32 (-1048578))).wellFormed = false := by decide
theorem test_offset21_odd : (Instr.jal 1#5 13#32).wellFormed = false := by decide

/-! ## Decoding: each constructor from a word of the spec -/

theorem test_decode_r_format :
    decodeTableWord 32 0x002081B3 = some (.add 3#5 1#5 2#5) ∧ decodeTableWord 32 0x402081B3 = some (.sub 3#5 1#5 2#5) ∧
    decodeTableWord 32 0x0020F1B3 = some (.and 3#5 1#5 2#5) ∧ decodeTableWord 32 0x0020E1B3 = some (.or 3#5 1#5 2#5) ∧
    decodeTableWord 32 0x0020A1B3 = some (.slt 3#5 1#5 2#5) := by decide

/-- DEC1 to DEC4, ALU16, ALU19, and the most negative immediate (ALU14). -/
theorem test_decode_i_format :
    decodeTableWord 32 0xFFF00293 = some (.addi 5#5 0#5 (BitVec.ofInt 32 (-1))) ∧
    decodeTableWord 32 0x40000093 = some (.addi 1#5 0#5 1024#32) ∧
    decodeTableWord 32 0x80008093 = some (.addi 1#5 1#5 (BitVec.ofInt 32 (-2048))) ∧
    decodeTableWord 32 0x0F00F193 = some (.andi 3#5 1#5 0xF0#32) ∧
    decodeTableWord 32 0x8000E193 = some (.ori 3#5 1#5 (BitVec.ofInt 32 (-2048))) ∧
    decodeTableWord 32 0x0000A183 = some (.lw 3#5 1#5 0#32) ∧
    decodeTableWord 32 0x000100E7 = some (.jalr 1#5 2#5 0#32) := by decide

/-- DEC5 to DEC13. -/
theorem test_decode_s_sb_uj_formats :
    decodeTableWord 32 0xFE512E23 = some (.sw 5#5 2#5 (BitVec.ofInt 32 (-4))) ∧
    decodeTableWord 32 0x00208463 = some (.beq 1#5 2#5 8#32) ∧
    decodeTableWord 32 0xFE208CE3 = some (.beq 1#5 2#5 (BitVec.ofInt 32 (-8))) ∧
    decodeTableWord 32 0x80000063 = some (.beq 0#5 0#5 (BitVec.ofInt 32 (-4096))) ∧
    decodeTableWord 32 0x7E000FE3 = some (.beq 0#5 0#5 4094#32) ∧
    decodeTableWord 32 0x00C000EF = some (.jal 1#5 12#32) ∧
    decodeTableWord 32 0xFF5FF06F = some (.jal 0#5 (BitVec.ofInt 32 (-12))) ∧
    decodeTableWord 32 0x8000006F = some (.jal 0#5 (BitVec.ofInt 32 (-1048576))) ∧
    decodeTableWord 32 0x7FFFF06F = some (.jal 0#5 1048574#32) := by decide

/-- The words of `lw x12, 0(x10)` and `sw x5, 8(x2)` written out bit by bit from R52: imm[11:0] rs1 010 rd 0000011, and
imm[11:5] rs2 rs1 010 imm[4:0] 0100011. -/
theorem test_decode_bit_by_bit :
    decodeTableWord 32 0b000000000000_01010_010_01100_0000011 = some (.lw 12#5 10#5 0#32) ∧
    decodeTableWord 32 0b0000000_00101_00010_010_01000_0100011 = some (.sw 5#5 2#5 8#32) := by decide

/-- DEC15 to DEC38, each of which the decoder refuses. -/
theorem test_decode_rejects :
    [0x00000000, 0xFFFFFFFF, 0x00000001, 0x00004501, 0x00000037, 0x00000017, 0x0000000F, 0x00000073, 0x00100073, 0x0000202F,
      0x00001033, 0x02000033, 0x40007033, 0x4000E033, 0x4000A033, 0x00002013, 0x00000003, 0x00004003, 0x00003003,
      0x00001067, 0x00000023, 0x00001023, 0x00003023, 0x00001063].all
      (fun w => (decodeTableWord 32 w).isNone) = true := by decide

/-- The words of W1: re-encoding gives the word back. -/
theorem test_encode_words :
    encode (.add 3#5 1#5 2#5) = 0x002081B3#32 ∧ encode (.sub 3#5 1#5 2#5) = 0x402081B3#32 ∧
    encode (.addi 5#5 0#5 (BitVec.ofInt 32 (-1))) = 0xFFF00293#32 ∧ encode (.lw 12#5 10#5 0#32) = 0x00052603#32 ∧
    encode (.sw 5#5 2#5 (BitVec.ofInt 32 (-4))) = 0xFE512E23#32 ∧
    encode (.beq 1#5 2#5 (BitVec.ofInt 32 (-8))) = 0xFE208CE3#32 ∧
    encode (.jal 0#5 (BitVec.ofInt 32 (-12))) = 0xFF5FF06F#32 := by decide

/-! ## One step of each instruction -/

/-- A running state with MEM_WORDS = 64, the program and the initial maps of a vector, at pc = 0. -/
def start (prog : List Nat) (regs mem : List (Nat × Int)) : State :=
  (((State.resetWith 64).loadProgram (prog.map (BitVec.ofNat 32))).applyRegisterMap regs).applyMemoryMap mem

/-- The program `words` from byte address `4 * k`, with zero words before it, and pc there. -/
def startAt (k : Nat) (words : List Nat) (regs : List (Nat × Int)) : State :=
  { start (List.replicate k 0 ++ words) regs [] with pc := BitVec.ofNat 32 (4 * k) }

/-- The state after one step. -/
def after (s : State) : Option State :=
  match step s with
  | .next t => some t
  | .fault _ => none
  | .refused _ => none

/-- One register, pc and count after one step. -/
def regAfter (s : State) (r : RegIdx) : Option (Word × Word × Nat) := (after s).map fun t => (t.getReg r, t.pc, t.count)

/-- ALU2. -/
theorem test_add_wraps : regAfter (start [0x002081B3] [(1, 0x7FFFFFFF), (2, 1)] []) 3#5 = some (0x80000000#32, 4#32, 1) := by
  decide
/-- ALU22. -/
theorem test_add_source_is_dest : regAfter (start [0x001080B3] [(1, 3)] []) 1#5 = some (6#32, 4#32, 1) := by decide
/-- ALU4. -/
theorem test_sub_order : regAfter (start [0x402081B3] [(1, 5), (2, 7)] []) 3#5 = some (0xFFFFFFFE#32, 4#32, 1) := by decide
/-- ALU5. -/
theorem test_sub_wraps : regAfter (start [0x402081B3] [(1, 0x80000000), (2, 1)] []) 3#5 = some (0x7FFFFFFF#32, 4#32, 1) := by
  decide
/-- ALU6. -/
theorem test_and : regAfter (start [0x0020F1B3] [(1, 0xFFFFFFF9), (2, 5)] []) 3#5 = some (1#32, 4#32, 1) := by decide
/-- ALU7. -/
theorem test_or : regAfter (start [0x0020E1B3] [(1, 0xFFFFFFF9), (2, 5)] []) 3#5 = some (0xFFFFFFFD#32, 4#32, 1) := by decide
/-- ALU9. -/
theorem test_slt_signed : regAfter (start [0x0020A1B3] [(1, 0x80000000), (2, 0x7FFFFFFF)] []) 3#5 = some (1#32, 4#32, 1) := by
  decide
/-- ALU11. -/
theorem test_slt_equal : regAfter (start [0x0020A1B3] [(1, 5), (2, 5), (3, 9)] []) 3#5 = some (0#32, 4#32, 1) := by decide
/-- ALU13. -/
theorem test_addi_is_never_sub : regAfter (start [0x40000093] [] []) 1#5 = some (0x400#32, 4#32, 1) := by decide
/-- ALU21, ALU23: rd = x0; pc and count move and nothing else. -/
theorem test_addi_x0 :
    after (start [0x00500013] [(1, 3)] []) = some { start [0x00500013] [(1, 3)] [] with pc := 4#32, count := 1 } := by decide
/-- ALU18. -/
theorem test_andi_sign_extends :
    regAfter (start [0x8000F193] [(1, 0x12345678)] []) 3#5 = some (0x12345000#32, 4#32, 1) := by decide
/-- ALU16. -/
theorem test_andi : regAfter (start [0x0F00F193] [(1, 0x12345678)] []) 3#5 = some (0x70#32, 4#32, 1) := by decide
/-- ALU19. -/
theorem test_ori_sign_extends : regAfter (start [0x8000E193] [(1, 5)] []) 3#5 = some (0xFFFFF805#32, 4#32, 1) := by decide
/-- ALU20. -/
theorem test_ori : regAfter (start [0x0F00E193] [(1, 0x0F)] []) 3#5 = some (0xFF#32, 4#32, 1) := by decide
/-- LS12: the base is the old x1. -/
theorem test_lw_base_is_dest : regAfter (start [0x0000A083] [(1, 0x20)] [(0x20, 0x44)]) 1#5 = some (0x44#32, 4#32, 1) := by
  decide
/-- LS9: rd = x0 does not suppress the check. -/
theorem test_lw_x0_misaligned :
    (after (start [0x00012003] [(2, 2)] [])).map (fun t => (t.run, t.err, t.pc, t.count)) =
      some (.haltedError, some ⟨.unalignedAccessError, 0#32, some 0x00012003#32, .memory⟩, 0#32, 0) := by decide
/-- LS3. -/
theorem test_sw_negative_offset :
    (after (start [0xFE512E23] [(2, 0x10), (5, 0xCAFEF00D)] [])).map memorySnapshot = some [(0x0C, 0xCAFEF00D#32)] := by decide
/-- LS14: no partial write to either neighbour. -/
theorem test_sw_misaligned :
    (after (start [0x00112023] [(1, 9), (2, 6)] [(4, 1), (8, 2)])).map (fun t => (t.run, memorySnapshot t)) =
      some (.haltedError, [(4, 1#32), (8, 2#32)]) := by decide
/-- CT3. -/
theorem test_beq_backward : (after (startAt 4 [0xFE208CE3] [(1, 3), (2, 3)])).map State.pc = some 8#32 := by decide
/-- CT2. -/
theorem test_beq_not_taken : (after (startAt 2 [0x00208463] [(1, 3), (2, 4)])).map State.pc = some 0x0C#32 := by decide
/-- CT8. -/
theorem test_jal_links : regAfter (startAt 1 [0x00C000EF] []) 1#5 = some (8#32, 0x10#32, 1) := by decide
/-- CT9. -/
theorem test_jal_x0_backward : regAfter (startAt 5 [0xFF5FF06F] []) 0#5 = some (0#32, 8#32, 1) := by decide
/-- CT12: the target uses the old x1. -/
theorem test_jalr_source_is_dest : regAfter (start [0x004080E7] [(1, 0x20)] []) 1#5 = some (4#32, 0x24#32, 1) := by decide
/-- CT13: only bit 0 is cleared. -/
theorem test_jalr_clears_bit0 : regAfter (start [0x00008067] [(1, 0x11)] []) 0#5 = some (0#32, 0x10#32, 1) := by decide

/-! ## Fetch, halts, reset, host -/

/-- F1. -/
theorem test_empty_program : after State.reset = some { State.reset with run := .haltedNormal } := by decide

/-- CT4 and CT14, at the fetch that follows: range, then alignment, at pc with no word fetched. -/
theorem test_fetch_errors :
    (after { start [0x80000063] [] [] with pc := 0xFFFFF000#32 }).map State.err =
      some (some ⟨.outOfRangeAccessError, 0xFFFFF000#32, none, .fetch⟩) ∧
    (after { start [0x00028067] [] [] with pc := 6#32 }).map State.err =
      some (some ⟨.unalignedAccessError, 6#32, none, .fetch⟩) := by decide

/-- F4: a misaligned pc past the end is an error, not a normal halt. -/
theorem test_misaligned_past_end :
    (after { start [0x00028067] [(5, 0x1A)] [] with pc := 0x1A#32 }).map (fun t => (t.run, t.err)) =
      some (.haltedError, some ⟨.unalignedAccessError, 0x1A#32, none, .fetch⟩) := by decide

/-- P5, its second cycle: the word is not one of the thirteen. -/
theorem test_decode_error :
    (after (startAt 1 [0x00209033] [(1, 1)])).map (fun t => (t.run, t.err, t.pc, t.count)) =
      some (.haltedError, some ⟨.decodeError, 4#32, some 0x00209033#32, .decode⟩, 4#32, 0) := by decide

/-- LS17: with no data memory, every access faults. -/
theorem test_no_data_memory :
    (after { start [0x00002083] [] [] with memWords := 0 }).map State.err =
      some (some ⟨.outOfRangeAccessError, 0#32, some 0x00002083#32, .memory⟩) := by decide

/-- F3. -/
theorem test_halted_is_stuck :
    after { start [0x00000013] [] [] with run := .haltedNormal } = some { start [0x00000013] [] [] with run := .haltedNormal } := by
  decide

/-- The host's question: from reset, the next step fetches and runs the word put in place (ALU12). -/
theorem test_with_fetch_word :
    (after (State.reset.withFetchWord 32 0xFFF00293)).map (fun t => (t.getReg 5#5, t.pc, t.count)) =
      some (0xFFFFFFFF#32, 4#32, 1) := by decide

/-- F5 and F6: the entry for x0 is ignored, and the snapshot lists the registers that are not 0. -/
theorem test_register_map : registerSnapshot (start [] [(0, 5), (3, 7)] []) = [(3, 7#32)] := by decide

/-- LS1, its trace record; and a cycle that faults emits none (LS4). -/
theorem test_trace :
    traceOf (start [0xFFC12083] [(2, 8)] [(4, 0xABCD)]) =
      some ⟨1, 0xFFC12083#32, .lw, controlUnit .lw, 4#32, .read 4#32 0xABCD#32, some (1#5, 0xABCD#32), 4#32⟩ ∧
    traceOf (start [0x00012083] [(1, 0x55), (2, 2)] []) = none := by decide

/-- R67: the words of `nop` and `ret` (ALU23, P3). -/
theorem test_pseudo : encode (expandPseudo .nop) = 0x00000013#32 ∧ encode (expandPseudo .ret) = 0x00008067#32 := by decide

/-- R66: the source's own operand forms, and an ABI name. -/
theorem test_asm_text :
    asmText (.addi 5#5 0#5 (BitVec.ofInt 32 (-1))) = "addi x5, x0, -1" ∧ asmText (.jalr 1#5 2#5 0#32) = "jalr x1, 0(x2)" ∧
    regOfName "a0" = some 10#5 := by decide

/-! ## The hypotheses of the statements are met

Each theorem names the statement and shows states and operands that meet its hypotheses together, at boundary values. -/

/-- DecodeOfEncode: both ends of every immediate's range. -/
theorem test_hyps_DecodeOfEncode :
    (Instr.addi 31#5 0#5 (BitVec.ofInt 32 (-2048))).WellFormed ∧ (Instr.sw 31#5 1#5 2047#32).WellFormed ∧
    (Instr.beq 1#5 2#5 (BitVec.ofInt 32 (-4096))).WellFormed ∧ (Instr.beq 1#5 2#5 4094#32).WellFormed ∧
    (Instr.jal 1#5 (BitVec.ofInt 32 (-1048576))).WellFormed ∧ (Instr.jal 1#5 1048574#32).WellFormed ∧
    (Instr.slt 1#5 2#5 3#5).WellFormed := by decide

/-- EncodeOfDecode (DEC5). -/
theorem test_hyps_EncodeOfDecode : decode 0xFE512E23#32 = .ok (.sw 5#5 2#5 0xFFFFFFFC#32) := by rfl

/-- ImmediateOfIFormat: the spec's example. -/
theorem test_hyps_ImmediateOfIFormat :
    (∃ d, decodeRecord 0xFFF00293#32 = .ok d ∧ d.fmt = .I) ∧ (0xFFF00293#32).extractLsb' 20 12 = 0b111111111111#12 :=
  ⟨⟨_, rfl, rfl⟩, rfl⟩

/-- ImmediateOfSFormat (DEC5). -/
theorem test_hyps_ImmediateOfSFormat : ∃ d, decodeRecord 0xFE512E23#32 = .ok d ∧ d.fmt = .S := ⟨_, rfl, rfl⟩

/-- ImmediateOfSBFormat (DEC8), and two registers that hold the same. -/
theorem test_hyps_ImmediateOfSBFormat :
    (∃ d, decodeRecord 0x80000063#32 = .ok d ∧ d.fmt = .SB) ∧ State.reset.getReg 1#5 = State.reset.getReg 2#5 :=
  ⟨⟨_, rfl, rfl⟩, by decide⟩

/-- ImmediateOfUJFormat (DEC12). -/
theorem test_hyps_ImmediateOfUJFormat : ∃ d, decodeRecord 0x8000006F#32 = .ok d ∧ d.fmt = .UJ := ⟨_, rfl, rfl⟩

/-- DecodedRecordFields: a word of each format. -/
theorem test_hyps_DecodedRecordFields :
    (∃ d, decodeRecord 0x002081B3#32 = .ok d ∧ d.fmt = .R) ∧ (∃ d, decodeRecord 0x0000A183#32 = .ok d ∧ d.fmt = .I) ∧
    (∃ d, decodeRecord 0xFE512E23#32 = .ok d ∧ d.fmt = .S) ∧ (∃ d, decodeRecord 0x00208463#32 = .ok d ∧ d.fmt = .SB) ∧
    (∃ d, decodeRecord 0x00C000EF#32 = .ok d ∧ d.fmt = .UJ) :=
  ⟨⟨_, rfl, rfl⟩, ⟨_, rfl, rfl⟩, ⟨_, rfl, rfl⟩, ⟨_, rfl, rfl⟩, ⟨_, rfl, rfl⟩⟩

/-- DecodeErrorSpace: the compressed pattern of DEC18. -/
theorem test_hyps_DecodeErrorSpace : (0x00004501#32).extractLsb' 0 2 ≠ 0b11#2 := by decide

/-- OtherRiscvEncodingsRejected: a word for each clause (DEC19, DEC38, DEC32, DEC36, DEC30, DEC25, DEC26, DEC27, DEC34). -/
theorem test_hyps_OtherRiscvEncodingsRejected :
    opcodeOf 0x00000037#32 = 0b0110111#7 ∧ (opcodeOf 0x00001063#32 = 0b1100011#7 ∧ funct3Of 0x00001063#32 = 0b001#3) ∧
    (opcodeOf 0x00004003#32 = 0b0000011#7 ∧ funct3Of 0x00004003#32 = 0b100#3) ∧
    (opcodeOf 0x00001023#32 = 0b0100011#7 ∧ funct3Of 0x00001023#32 = 0b001#3) ∧
    (opcodeOf 0x00002013#32 = 0b0010011#7 ∧ funct3Of 0x00002013#32 = 0b010#3) ∧
    (opcodeOf 0x00001033#32 = 0b0110011#7 ∧ funct3Of 0x00001033#32 = 0b001#3) ∧
    (opcodeOf 0x02000033#32 = 0b0110011#7 ∧ funct7Of 0x02000033#32 = 0b0000001#7) ∧
    (opcodeOf 0x40007033#32 = 0b0110011#7 ∧ funct3Of 0x40007033#32 = 0b111#3 ∧ funct7Of 0x40007033#32 = 0b0100000#7) ∧
    (opcodeOf 0x00001067#32 = 0b1100111#7 ∧ funct3Of 0x00001067#32 = 0b001#3) := by decide

/-- TableRowsSelect, and the encoding clause of each of the thirteen rules: a word that has the row's selecting bits. -/
theorem test_hyps_TableRowsSelect :
    Mnemonic.Selects .add 0x002081B3#32 ∧ Mnemonic.Selects .sub 0x402081B3#32 ∧ Mnemonic.Selects .and 0x0020F1B3#32 ∧
    Mnemonic.Selects .or 0x0020E1B3#32 ∧ Mnemonic.Selects .slt 0x0020A1B3#32 ∧ Mnemonic.Selects .lw 0x00052603#32 ∧
    Mnemonic.Selects .addi 0xFFF00293#32 ∧ Mnemonic.Selects .andi 0x0F00F193#32 ∧ Mnemonic.Selects .ori 0x8000E193#32 ∧
    Mnemonic.Selects .jalr 0x000100E7#32 ∧ Mnemonic.Selects .sw 0xFE512E23#32 ∧ Mnemonic.Selects .beq 0xFE208CE3#32 ∧
    Mnemonic.Selects .jal 0xFF5FF06F#32 := by decide

/-- AndRule: the and funct3 with the sub funct7 (DEC27). -/
theorem test_hyps_AndRule :
    0x40007033#32 &&& 0x0000707F#32 = 0x00007033#32 ∧ funct7Of 0x40007033#32 ≠ 0b0000000#7 := by decide

/-- NoEncodingIsHint: ALU24 and ALU21. -/
theorem test_hyps_NoEncodingIsHint :
    (opcodeOf 0x00208033#32 = 0b0110011#7 ∧ rdOf 0x00208033#32 = 0#5 ∧ ∃ d, decodeRecord 0x00208033#32 = .ok d) ∧
    (opcodeOf 0x00500013#32 = 0b0010011#7 ∧ rdOf 0x00500013#32 = 0#5 ∧ ∃ d, decodeRecord 0x00500013#32 = .ok d) :=
  ⟨⟨rfl, rfl, _, rfl⟩, ⟨rfl, rfl, _, rfl⟩⟩

/-- ControlTableProperties: a jal that links. -/
theorem test_hyps_ControlTableProperties :
    (controlUnit .jalr).jumpReg = true ∧ (controlUnit .lw).memtoReg = true ∧
    (controlUnit (Instr.jal 1#5 12#32).record.opcode).linkReg = true ∧ (Instr.jal 1#5 12#32).record.rd = some 1#5 := by decide

/-- AluControlReached: a funct3 off the table, and a decoded record of class FUNCT. -/
theorem test_hyps_AluControlReached :
    0b001#3 ∉ [0b000#3, 0b111#3, 0b110#3, 0b010#3] ∧
    ∃ d, decodeRecord 0x40000093#32 = .ok d ∧ (controlUnit d.opcode).aluOp = .FUNCT :=
  ⟨by decide, _, rfl, rfl⟩

/-- LwRule and SwRule: the last word is accessible; a misaligned EA; the first EA past the end, for the words of LS4, LS5, LS8
and LS15. -/
theorem test_hyps_LwRule_SwRule :
    (start [] [(2, 0xFC)] []).Accessible ((start [] [(2, 0xFC)] []).getReg 2#5 + 0#32) ∧
    decode 0x00012083#32 = .ok (.lw 1#5 2#5 0#32) ∧ ((start [] [(2, 2)] []).getReg 2#5 + 0#32).toNat % 4 ≠ 0 ∧
    (((start [] [(2, 0x100)] []).getReg 2#5 + 0#32).toNat % 4 = 0 ∧
      4 * (start [] [(2, 0x100)] []).memWords ≤ ((start [] [(2, 0x100)] []).getReg 2#5 + 0#32).toNat) ∧
    decode 0x00112023#32 = .ok (.sw 1#5 2#5 0#32) ∧ ((start [] [(2, 0x102)] []).getReg 2#5 + 0#32).toNat % 4 ≠ 0 ∧
    decode 0x00112223#32 = .ok (.sw 1#5 2#5 4#32) ∧
    (((start [] [(2, 0xFC)] []).getReg 2#5 + 4#32).toNat % 4 = 0 ∧
      4 * (start [] [(2, 0xFC)] []).memWords ≤ ((start [] [(2, 0xFC)] []).getReg 2#5 + 4#32).toNat) :=
  ⟨by decide, rfl, by decide, by decide, rfl, by decide, rfl, by decide⟩

/-- InstructionCommitBound: a sw that changes memory. -/
theorem test_hyps_InstructionCommitBound :
    ∃ t, exec (.sw 5#5 2#5 8#32) (start [] [(2, 0x10), (5, 9)] []) = .next t ∧ t.mem ≠ (start [] [(2, 0x10), (5, 9)] []).mem :=
  ⟨_, rfl, by decide⟩

/-- OnlyLwReadsMemory: an add, over two data memories. -/
theorem test_hyps_OnlyLwReadsMemory :
    (Instr.add 3#5 1#5 2#5).mnemonic ≠ .lw ∧ (∃ t, exec (.add 3#5 1#5 2#5) State.reset = .next t) ∧
    ∃ u, exec (.add 3#5 1#5 2#5) { State.reset with mem := [(0, 7#8)] } = .next u := ⟨by decide, ⟨_, rfl⟩, ⟨_, rfl⟩⟩

/-- StoreThenLoadReturnsValue: the last word, another word, and the first word past the end. -/
theorem test_hyps_StoreThenLoadReturnsValue :
    State.reset.Accessible 0xFC#32 ∧ State.reset.Accessible 0#32 ∧ 0#32 ≠ 0xFC#32 ∧ ¬State.reset.Accessible 0x100#32 := by decide

/-- The next step of a reset state with a program and registers runs the program's first word. -/
theorem runsNext_start {w : Nat} {ws : List Nat} {regs mem : List (Nat × Int)} {i : Instr}
    (h : (start (w :: ws) regs mem).run = .running ∧ FetchablePc (start (w :: ws) regs mem).pc ∧
      (start (w :: ws) regs mem).imem[(start (w :: ws) regs mem).pc.toNat / 4]? = some (BitVec.ofNat 32 w))
    (hd : decode (BitVec.ofNat 32 w) = .ok i) : RunsNext (start (w :: ws) regs mem) (BitVec.ofNat 32 w) i :=
  ⟨h.1, h.2.1, h.2.2, hd⟩

/-- DataAccessErrors: LS4, LS5 and LS7. -/
theorem test_hyps_DataAccessErrors :
    RunsNext (start [0x00012083] [(2, 2)] []) 0x00012083#32 (.lw 1#5 2#5 0#32) ∧
    ((start [0x00012083] [(2, 2)] []).getReg 2#5 + 0#32).extractLsb' 0 2 ≠ 0b00#2 ∧
    RunsNext (start [0x00012083] [(2, 0x100)] []) 0x00012083#32 (.lw 1#5 2#5 0#32) ∧
    ((start [0x00012083] [(2, 0x100)] []).getReg 2#5 + 0#32).extractLsb' 0 2 = 0b00#2 ∧
    4 * 64 ≤ ((start [0x00012083] [(2, 0x100)] []).getReg 2#5 + 0#32).toNat ∧
    (start [0x00012083] [(2, -4)] []).memWords ≤ 2 ^ 29 ∧ ((start [0x00012083] [(2, -4)] []).getReg 2#5 + 0#32).toInt < 0 :=
  ⟨runsNext_start (by decide) rfl, by decide, runsNext_start (by decide) rfl, by decide, by decide, by decide, by decide⟩

/-- LoadSeesMostRecentStore: W6, its store and then its load. -/
theorem test_hyps_LoadSeesMostRecentStore :
    (start [0x00512423, 0x00812303] [(2, 0x10), (5, 0xCAFEF00D)] []).Accessible 0x18#32 ∧
    ∃ t, Host.Core.run core 1 (start [0x00512423, 0x00812303] [(2, 0x10), (5, 0xCAFEF00D)] []) = .next t ∧
      RunsNext t 0x00812303#32 (.lw 6#5 2#5 8#32) ∧ t.getReg 2#5 + 8#32 = 0x18#32 :=
  ⟨by decide, _, rfl, ⟨rfl, by decide, rfl, rfl⟩, by decide⟩

/-- CanonicalMemoryUnique: a memory with a cell, in its canonical form. -/
theorem test_hyps_CanonicalMemoryUnique :
    Memory.wf [(4, 1#8), (9, 2#8)] ∧ ∀ a, Memory.readByte [(4, 1#8), (9, 2#8)] a = Memory.readByte [(4, 1#8), (9, 2#8)] a :=
  ⟨by decide, fun _ => rfl⟩

/-- FetchClassifiesPc: the four cases, at the boundaries of bit 31 and of the end of a one-word program. -/
theorem test_hyps_FetchClassifiesPc :
    (start [0x13] [] []).run = .running ∧ (0x80000002#32).extractLsb' 0 2 ≠ 0b00#2 ∧
    ((0x80000000#32).extractLsb' 0 2 = 0b00#2 ∧ (0x80000000#32).getLsbD 31 = true) ∧
    ((0x7FFFFFFC#32).extractLsb' 0 2 = 0b00#2 ∧ (0x7FFFFFFC#32).getLsbD 31 = false) ∧
    4 * (start [0x13] [] []).imem.length ≤ (4#32).toNat ∧ (start [0x13] [] []).pc.toNat < 4 * (start [0x13] [] []).imem.length := by
  decide

/-- StepRunsDecodedInstruction, and TraceRecordOfCycle's first clause: a state whose next step runs an addi and goes on. -/
theorem test_hyps_StepRunsDecodedInstruction :
    RunsNext (start [0xFFF00293] [] []) 0xFFF00293#32 (.addi 5#5 0#5 0xFFFFFFFF#32) ∧
    ∃ t, step (start [0xFFF00293] [] []) = .next t ∧ t.run = .running := ⟨runsNext_start (by decide) rfl, _, rfl, rfl⟩

/-- DecodeErrorIsFatal: the zero word (DEC15). -/
theorem test_hyps_DecodeErrorIsFatal :
    (start [0] [] []).run = .running ∧ FetchablePc (start [0] [] []).pc ∧
    (start [0] [] []).imem[(start [0] [] []).pc.toNat / 4]? = some 0#32 ∧ Rejected 0#32 :=
  ⟨rfl, by decide, rfl, .unknownOpcode, rfl⟩

/-- FatalErrorIsPrecise, ErrorRecordContext, FirstErrorInStageOrder: a cycle that fails in each of the three stages, and in
MEMORY by range as well as by alignment. -/
theorem test_hyps_FatalErrorIsPrecise :
    (∃ t, step { start [0x13] [] [] with pc := 2#32 } = .next t ∧ t.run = .haltedError) ∧
    (∃ t, step { start [0x13] [] [] with pc := 0x80000000#32 } = .next t ∧ t.run = .haltedError) ∧
    (∃ t, step (start [0] [] []) = .next t ∧ t.run = .haltedError) ∧
    (∃ t, step (start [0x00012083] [(2, 2)] []) = .next t ∧ t.run = .haltedError) ∧
    (∃ t, step (start [0x00012083] [(2, 0x100)] []) = .next t ∧ t.run = .haltedError) :=
  ⟨⟨_, rfl, rfl⟩, ⟨_, rfl, rfl⟩, ⟨_, rfl, rfl⟩, ⟨_, rfl, rfl⟩, ⟨_, rfl, rfl⟩⟩

/-- HaltedStatesAreTerminal, and TraceRecordOfCycle's second clause: both ways a running state's step ends the run. -/
theorem test_hyps_HaltedStatesAreTerminal :
    (∃ t, step State.reset = .next t ∧ t.Ended) ∧ ∃ t, step (start [0] [] []) = .next t ∧ t.Ended :=
  ⟨⟨_, rfl, by decide⟩, ⟨_, rfl, by decide⟩⟩

/-- CountEqualsRetired: W2, two cycles that retire. -/
theorem test_hyps_CountEqualsRetired :
    ∃ t, Host.Core.run core 2 (start [0x00500013, 0x00108033] [(1, 3)] []) = .next t ∧ t.run = .running := ⟨_, rfl, rfl⟩

/-- A program of `n` no-ops, with pc at `pc`. -/
def noops (n : Nat) (pc : Word) : State := { State.reset with imem := List.replicate n 0x13#32, pc := pc }

/-- A fetchable pc below the end of a program of no-ops fetches one. -/
theorem fetch_noops {n : Nat} {pc : Word} (h : FetchablePc pc) (hn : pc.toNat / 4 < n) : (noops n pc).fetch = .word 0x13#32 := by
  refine fetch_eq_word (s := noops n pc) h ?_
  show (List.replicate n 0x13#32)[pc.toNat / 4]? = some 0x13#32
  rw [List.getElem?_replicate, if_pos hn]

/-- FetchedPcDoesNotWrap: the longest program the spec admits, at its last word. -/
theorem test_hyps_FetchedPcDoesNotWrap :
    (noops Config.maxProgLen 0x7FFFFFF8#32).imem.length ≤ Config.maxProgLen ∧
    (noops Config.maxProgLen 0x7FFFFFF8#32).fetch = .word 0x13#32 :=
  ⟨(List.length_replicate (n := Config.maxProgLen) (a := 0x13#32)).le, fetch_noops (by decide) (by decide)⟩

/-- SelfBranchNeverEnds. -/
theorem test_hyps_SelfBranchNeverEnds :
    (start [0x63] [] []).run = .running ∧ FetchablePc (start [0x63] [] []).pc ∧
    (start [0x63] [] []).imem[(start [0x63] [] []).pc.toNat / 4]? = some 0x63#32 := by decide

/-- StepKeepsInvariant: a state part of the way through a program that meets the invariant, with a byte in memory, and its
step. -/
theorem test_hyps_StepKeepsInvariant :
    { startAt 1 [0x13] [(1, 5)] with mem := [(8, 1#8)] }.Inv ∧ ∃ t, step { startAt 1 [0x13] [(1, 5)] with mem := [(8, 1#8)] } = .next t :=
  ⟨{ memWf := by decide, memInRange := by decide, x0Slot := by decide, memWordsBound := by decide, progLenBound := by decide,
     pcEven := by decide, errIff := by decide, errPc := fun _ h => (nomatch h), normalHalt := fun h => (nomatch h) }, _, rfl⟩

/-- InvariantAtReset: both ends of MEM_WORDS; a state that meets the invariant is test_hyps_StepKeepsInvariant's. -/
theorem test_hyps_InvariantAtReset : 0 ≤ Config.maxMemWords ∧ 2 ^ 29 ≤ Config.maxMemWords := by decide

/-- ResetValues: a step from each of the two halted states. -/
theorem test_hyps_ResetValues :
    (∃ t, ({ State.reset with run := .haltedNormal } : State).Ended ∧ step { State.reset with run := .haltedNormal } = .next t) ∧
    ∃ t, ({ State.reset with run := .haltedError } : State).Ended ∧ step { State.reset with run := .haltedError } = .next t :=
  ⟨⟨_, by decide, rfl⟩, ⟨_, by decide, rfl⟩⟩

/-- BootAppliesInitialMaps, InvariantAfterBoot, ProgramLoadedWholeOrNotAtAll: maps at the ends of their ranges, and their load. -/
theorem test_hyps_BootAppliesInitialMaps :
    64 ≤ Config.maxMemWords ∧ [0xFFFFFFFF, 0x13].length ≤ Config.maxProgLen ∧ (∀ w ∈ [0xFFFFFFFF, 0x13], w < 2 ^ 32) ∧
    (∀ e ∈ [((0 : Nat), (5 : Int)), (31, -(2 ^ 31))], e.1 ≤ 31 ∧ -(2 ^ 31) ≤ e.2 ∧ e.2 < 2 ^ 32) ∧
    (∀ e ∈ [((0xFC : Nat), (2 ^ 32 - 1 : Int))], e.1 % 4 = 0 ∧ e.1 < 4 * 64 ∧ -(2 ^ 31) ≤ e.2 ∧ e.2 < 2 ^ 32) ∧
    ([((0 : Nat), (5 : Int)), (31, -(2 ^ 31))].map Prod.fst).Nodup ∧ ([((0xFC : Nat), (2 ^ 32 - 1 : Int))].map Prod.fst).Nodup ∧
    ∃ s, boot 64 [0xFFFFFFFF, 0x13] [(0, 5), (31, -(2 ^ 31))] [(0xFC, 2 ^ 32 - 1)] = .next s :=
  ⟨by decide, by decide, by decide, by decide, by decide, by decide, by decide, _, rfl⟩

/-- EmptyProgramHalts: the load of the empty program. -/
theorem test_hyps_EmptyProgramHalts : ∃ s, boot 0 [] [(3, 7)] [] = .next s := ⟨_, rfl⟩

/-- ProgramLoadedWholeOrNotAtAll: a program with an entry of 33 bits. -/
theorem test_hyps_ProgramLoadedWholeOrNotAtAll : ∃ w ∈ [0x13, 2 ^ 32], 2 ^ 32 ≤ w := by decide

end Sys2Proof.Tests
end

/-! PROOFS. The register file's x0 (R19) and the cycle counter (R25). The counter rests on `exec_eq_datapathCycle`: the meaning
of an instruction and its trace record read the same memory stage, so a cycle retires exactly when it emits a record. -/

namespace Sys2Proof.Machine

/-! ## x0 -/

/-- Writeback's guard (R79). -/
theorem ne_x0_of_writebackOf {d : Decoded} {g : Signals} {e : MemEffect} {s : State} {rd : RegIdx} {v : Word}
    (h : writebackOf d g e s = some (rd, v)) : rd ≠ 0#5 := by
  unfold writebackOf at h
  split at h
  · cases h
  · split at h <;> split at h
    · next hne => cases h; exact hne
    · cases h
    · next hne => cases h; exact hne.2
    · cases h

/-- A register map is applied by register writes, so its entry for 0 is one to x0 (R116). -/
theorem applyRegisterMap_x0 (s : State) (v : Int) : s.applyRegisterMap [(0, v)] = s :=
  setReg_x0 s (BitVec.ofInt 32 v)

/-- Settles O31: the register file's guard, Writeback's guard, and the register map as register writes. -/
theorem x0HardWired : Obligations.X0HardWired :=
  ⟨getReg_x0, setReg_x0, fun _ _ _ _ _ h => ne_x0_of_writebackOf h rfl, applyRegisterMap_x0⟩

/-! ## The meanings are the datapath's cycle -/

@[simp] theorem applyWriteback_none (s : State) : applyWriteback none s = s := rfl

@[simp] theorem applyWriteback_count (w : Option (RegIdx × Word)) (s : State) : (applyWriteback w s).count = s.count := by
  cases w <;> simp [applyWriteback]

/-- R82: the meaning of an instruction is the cycle the datapath's blocks make of its record. lw and sw split on the answer of
their access; the other eleven pass the memory stage. -/
theorem exec_eq_datapathCycle (i : Instr) (s : State) : exec i s = .next (datapathCycle i.record (encode i) s) := by
  cases i with
  | lw rd rs1 imm =>
    cases h : s.memRead (s.getReg rs1 + imm) <;>
      simp [exec, execLw, h, datapathCycle, signals, memoryStage, Instr.record, recordI, nextPcOf, writebackOf, aluResult,
        operandB, resolvedOp, aluControl, writebackValue, alu, Except.map]
  | sw rs2 rs1 imm =>
    cases h : s.memWrite (s.getReg rs1 + imm) (s.getReg rs2) <;>
      simp [exec, execSw, h, datapathCycle, signals, memoryStage, Instr.record, nextPcOf, writebackOf, aluResult,
        operandB, resolvedOp, aluControl, alu, Except.map]
  | _ =>
    simp [exec, execAdd, execSub, execAnd, execOr, execSlt, execAddi, execAndi, execOri, State.writeAndAdvance, execBeq,
      execJal, execJalr, datapathCycle, signals, memoryStage, Instr.record, recordR, recordI, nextPcOf, targetOf, writebackOf,
      writebackValue, aluResult, operandB, resolvedOp, aluControl, alu]

/-! ## A cycle retires exactly when it emits a record -/

/-- The cycle from `s` to `t` that emits `r` retires: it goes on where `s` was, with one count more and a record. -/
def RetiresWithRecord (s t : State) (r : Option TraceRecord) : Prop :=
  t.run = s.run ∧ t.count = s.count + 1 ∧ r.isSome = true

/-- The cycle from `s` to `t` that emits `r` ends the run: no count and no record. -/
def EndsWithoutRecord (s t : State) (r : Option TraceRecord) : Prop :=
  t.Ended ∧ t.count = s.count ∧ r = none

/-- A fatal error ends the run (R100). -/
theorem raiseError_endsWithoutRecord (s : State) (k : ErrorKind) (raw : Option Word) (g : Stage) :
    EndsWithoutRecord s (s.raiseError k raw g) none :=
  ⟨by simp [State.Ended], rfl, rfl⟩

/-- The memory stage leaves the counter alone. -/
theorem memoryStage_count {g : Signals} {s t : State} {e : MemEffect} (h : memoryStage g s = .ok (e, t)) :
    t.count = s.count := by
  rcases memoryStage_ok_cases h with ⟨-, -, -, rfl⟩ | ⟨-, -, -, -, rfl⟩ | ⟨-, -, -, rfl⟩ <;> rfl

/-- The memory stage alone decides whether a decoded instruction's cycle retires and whether it is recorded (R83, R84). -/
theorem datapathCycle_retires_or_ends (d : Decoded) (raw raw' : Word) (s : State) :
    RetiresWithRecord s (datapathCycle d raw s) (recordTrace d raw' s) ∨
    EndsWithoutRecord s (datapathCycle d raw s) (recordTrace d raw' s) := by
  cases hm : memoryStage (signals d s) s with
  | error k =>
    simp only [datapathCycle, recordTrace, hm]
    exact .inr (raiseError_endsWithoutRecord ..)
  | ok p =>
    simp only [datapathCycle, recordTrace, hm]
    exact .inl ⟨by simp [memoryStage_run hm], by simp [memoryStage_count hm], rfl⟩

/-! ### The record of each way a step goes -/

theorem traceOf_of_ended {s : State} (h : s.Ended) : traceOf s = none := by
  unfold traceOf
  cases hr : s.run with
  | running => exact absurd hr h
  | haltedNormal => rfl
  | haltedError => rfl

theorem traceOf_of_fetch_error {s : State} {k : ErrorKind} (hr : s.run = .running) (hf : s.fetch = .error k) :
    traceOf s = none := by
  simp only [traceOf, hr, hf]

theorem traceOf_of_exhausted {s : State} (hr : s.run = .running) (hf : s.fetch = .exhausted) : traceOf s = none := by
  simp only [traceOf, hr, hf]

theorem traceOf_of_decode_error {s : State} {w : Word} {why : DecodeReject} (hr : s.run = .running) (hf : s.fetch = .word w)
    (hd : decode w = .error why) : traceOf s = none := by
  simp only [traceOf, hr, hf, hd]

theorem traceOf_of_decode_ok {s : State} {w : Word} {i : Instr} (hr : s.run = .running) (hf : s.fetch = .word w)
    (hd : decode w = .ok i) : traceOf s = recordTrace i.record w s := by
  simp only [traceOf, hr, hf, hd]

/-- A step of a running core retires with a record or ends the run without one. -/
theorem step_retires_or_ends {s t : State} (hr : s.run = .running) (h : step s = .next t) :
    RetiresWithRecord s t (traceOf s) ∨ EndsWithoutRecord s t (traceOf s) := by
  rcases step_cases h with ⟨he, -⟩ | ⟨-, k, hf, rfl⟩ | ⟨-, hf, rfl⟩ | ⟨-, w, why, hf, hd, rfl⟩ | ⟨-, w, i, hf, hd, hx⟩
  · exact absurd hr he
  · rw [traceOf_of_fetch_error hr hf]
    exact .inr (raiseError_endsWithoutRecord ..)
  · exact .inr ⟨by simp [State.Ended], rfl, traceOf_of_exhausted hr hf⟩
  · rw [traceOf_of_decode_error hr hf hd]
    exact .inr (raiseError_endsWithoutRecord ..)
  · rw [traceOf_of_decode_ok hr hf hd]
    rw [exec_eq_datapathCycle] at hx
    cases hx
    exact datapathCycle_retires_or_ends ..

/-! ## The counter along a run -/

/-- Every step, of a halted core too, adds its records to the counter. -/
theorem step_count {s t : State} (h : step s = .next t) : t.count = s.count + (traceOf s).toList.length := by
  by_cases hr : s.run = .running
  · rcases step_retires_or_ends hr h with ⟨-, hc, hs⟩ | ⟨-, hc, hn⟩
    · obtain ⟨r, hr⟩ := Option.isSome_iff_exists.mp hs
      simp [hc, hr]
    · simp [hc, hn]
  · rw [step_of_ended hr] at h
    cases h
    simp [traceOf_of_ended hr]

/-- A step that leaves the core running retired an instruction. -/
theorem step_count_of_running {s t : State} (h : step s = .next t) (ht : t.run = .running) :
    s.run = .running ∧ t.count = s.count + 1 := by
  by_cases hr : s.run = .running
  · rcases step_retires_or_ends hr h with ⟨-, hc, -⟩ | ⟨he, -, -⟩
    · exact ⟨hr, hc⟩
    · exact absurd ht he
  · rw [step_of_ended hr] at h
    cases h
    exact absurd ht hr

theorem traceRun_succ {n : Nat} {s u : State} (h : step s = .next u) :
    traceRun (n + 1) s = (traceOf s).toList ++ traceRun n u := by
  rw [traceRun, h]

/-- Along every run the counter grows by the number of records. -/
theorem run_count (n : Nat) : ∀ s t : State, Host.Core.run core n s = .next t →
    t.count = s.count + (traceRun n s).length := by
  induction n with
  | zero =>
    intro s t h
    cases h
    rfl
  | succ n ih =>
    intro s t h
    obtain ⟨u, hu, hrest⟩ := run_succ_cases h
    rw [traceRun_succ hu, List.length_append, ih u t hrest, step_count hu, Nat.add_assoc]

/-- A run that has not ended was running from its start, and each of its steps retired. -/
theorem run_count_of_running (n : Nat) : ∀ s t : State, Host.Core.run core n s = .next t → t.run = .running →
    s.run = .running ∧ t.count = s.count + n := by
  induction n with
  | zero =>
    intro s t h ht
    cases h
    exact ⟨ht, rfl⟩
  | succ n ih =>
    intro s t h ht
    obtain ⟨u, hu, hrest⟩ := run_succ_cases h
    obtain ⟨hur, hc⟩ := ih u t hrest ht
    obtain ⟨hsr, hcu⟩ := step_count_of_running hu hur
    exact ⟨hsr, by omega⟩

/-! ## No instruction reads the counter -/

/-- The same state with another count. -/
def State.withCount (s : State) (c : Nat) : State := { s with count := c }

theorem setReg_withCount (s : State) (c : Nat) (r : RegIdx) (v : Word) :
    (s.withCount c).setReg r v = (s.setReg r v).withCount c := by
  unfold State.setReg
  split <;> rfl

@[simp] theorem withCount_getReg (s : State) (c : Nat) (r : RegIdx) : (s.withCount c).getReg r = s.getReg r := rfl

@[simp] theorem memRead_withCount (s : State) (c : Nat) (ea : Word) : (s.withCount c).memRead ea = s.memRead ea := rfl

@[simp] theorem memWrite_withCount (s : State) (c : Nat) (ea v : Word) :
    (s.withCount c).memWrite ea v = (s.memWrite ea v).map fun t => t.withCount c := by
  have he : (s.withCount c).accessError ea = s.accessError ea := rfl
  rw [State.memWrite, State.memWrite, he]
  cases s.accessError ea <;> rfl

/-- A register write and a retire commute with the choice of the count. -/
theorem setReg_retire_withCount (s : State) (c : Nat) (r : RegIdx) (v n : Word) :
    (((s.withCount c).setReg r v).retire n).withCount 0 = ((s.setReg r v).retire n).withCount 0 := by
  rw [setReg_withCount]
  rfl

/-- What an instruction does apart from the count does not depend on the count. -/
theorem exec_withCount {i : Instr} {s t : State} (c : Nat) (h : exec i s = .next t) :
    ∃ u, exec i (s.withCount c) = .next u ∧ u.withCount 0 = t.withCount 0 := by
  cases i with
  | lw rd rs1 imm =>
    simp only [exec, execLw, effAddr_eq, withCount_getReg, memRead_withCount] at h ⊢
    generalize s.memRead (s.getReg rs1 + imm) = answer at h ⊢
    cases answer with
    | error k =>
      cases h
      exact ⟨_, rfl, rfl⟩
    | ok v =>
      cases h
      exact ⟨_, rfl, setReg_retire_withCount ..⟩
  | sw rs2 rs1 imm =>
    simp only [exec, execSw, effAddr_eq, withCount_getReg, memWrite_withCount] at h ⊢
    generalize s.memWrite (s.getReg rs1 + imm) (s.getReg rs2) = answer at h ⊢
    cases answer with
    | error k =>
      cases h
      exact ⟨_, rfl, rfl⟩
    | ok u =>
      cases h
      exact ⟨_, rfl, rfl⟩
  | beq rs1 rs2 off =>
    cases h
    exact ⟨_, rfl, rfl⟩
  | _ =>
    cases h
    exact ⟨_, rfl, setReg_retire_withCount ..⟩

/-- Settles O45: a step retires with a record or ends without one, summed along the run; and the meanings commute with the
choice of the count. -/
theorem countEqualsRetired : Obligations.CountEqualsRetired := by
  refine ⟨fun s t hr h => ?_, fun n s t h => ⟨run_count n s t h, fun ht => (run_count_of_running n s t h ht).2⟩,
    fun i s t c h => exec_withCount c h⟩
  rcases step_retires_or_ends hr h with ⟨hrun, hret⟩ | hend
  · exact .inl ⟨hrun.trans hr, hret⟩
  · exact .inr hend

end Sys2Proof.Machine

/-! PROOFS. Data memory (R33 to R37), the program (R46), and the value a load sees (R43). One step is settled at the memory
stage, which the state and the trace record both read (`memoryStage_storedBy`); a run is the fold of its steps. -/

namespace Sys2Proof.Machine

/-! ## The access of one lw or sw -/

/-- Two aligned words are the same word or have no byte in common. -/
theorem readWord_writeWord_of_aligned {a b : Word} (ha : a.toNat % 4 = 0) (hb : b.toNat % 4 = 0) (m : Memory) (v : Word) :
    (m.writeWord a.toNat v).readWord b.toNat = if a = b then v else m.readWord b.toNat := by
  by_cases hab : a = b
  · rw [if_pos hab, hab, readWord_writeWord]
  · have hne : a.toNat ≠ b.toNat := fun h => hab (BitVec.eq_of_toNat_eq h)
    rw [if_neg hab, readWord_writeWord_of_apart _ _ _ _ (by omega)]

/-- A load of a state whose data memory was replaced reads the new one; its checks are the same. -/
theorem memRead_withMem_of_accessible {s : State} {ea : Word} (h : s.Accessible ea) (m : Memory) :
    ({ s with mem := m } : State).memRead ea = .ok (m.readWord ea.toNat) :=
  memRead_of_accessible (s := { s with mem := m }) h

/-- Settles O34: the store's own word reads back, an aligned word elsewhere lies apart from it, and an access that fails its
checks has no third answer. -/
theorem storeThenLoadReturnsValue : Obligations.StoreThenLoadReturnsValue := by
  refine ⟨fun s ea v ha => ⟨_, memWrite_of_accessible ha v, ?_, fun ea' ha' hne => ?_, fun b hb => ?_⟩, fun s ea v ha => ?_⟩
  · rw [memRead_withMem_of_accessible ha, readWord_writeWord]
  · rw [memRead_withMem_of_accessible ha', memRead_of_accessible ha', readWord_writeWord_of_aligned ha.1 ha'.1,
      if_neg hne.symm]
  · exact readByte_writeWord_of_not_in _ _ _ _ hb
  · rcases memWrite_cases s ea v with ⟨h, -⟩ | ⟨-, h⟩ | ⟨-, -, h⟩
    · exact absurd h ha
    · exact ⟨_, h⟩
    · exact ⟨_, h⟩

/-- The word that decodes to an instruction is the instruction's encoding (R64). -/
theorem encode_of_decode {w : Word} {i : Instr} (h : decode w = .ok i) : encode i = w := by
  obtain ⟨hk, hi⟩ := keyHolds_of_decode h
  rw [hi, encode_instrOfWord hk]

theorem step_of_runsNext {s : State} {w : Word} {i : Instr} (h : RunsNext s w i) : step s = exec i s := by
  obtain ⟨hr, hpc, hw, hd⟩ := h
  exact step_of_decode_ok hr (fetch_eq_word hpc hw) hd

/-- `i` is a lw or sw, and its effective address in `s` is `ea` (R33). -/
def AccessesData (i : Instr) (s : State) (ea : Word) : Prop :=
  (∃ rd rs1 imm, i = .lw rd rs1 imm ∧ ea = s.getReg rs1 + imm) ∨
  (∃ rs2 rs1 imm, i = .sw rs2 rs1 imm ∧ ea = s.getReg rs1 + imm)

/-- A lw and a sw give a failed check the same meaning (R93, R94). -/
theorem exec_of_accessError {i : Instr} {s : State} {ea : Word} {k : ErrorKind} (hi : AccessesData i s ea)
    (hk : s.accessError ea = some k) : exec i s = .next (s.raiseError k (some (encode i)) .memory) := by
  rcases hi with ⟨rd, rs1, imm, rfl, rfl⟩ | ⟨rs2, rs1, imm, rfl, rfl⟩
  · simp only [exec, execLw, effAddr_eq, State.memRead, hk]
  · simp only [exec, execSw, effAddr_eq, State.memWrite, hk]

/-- The step of a lw or sw that fails a check ends the run with that check's error and the fetched word (R99). -/
theorem step_fails_of_accessError {s : State} {w : Word} {i : Instr} {ea : Word} {k : ErrorKind} (hn : RunsNext s w i)
    (hi : AccessesData i s ea) (hk : s.accessError ea = some k) :
    ∃ t, step s = .next t ∧ FailsWith s t k (some w) .memory := by
  have hstep := (step_of_runsNext hn).trans (exec_of_accessError hi hk)
  obtain ⟨-, -, -, hd⟩ := hn
  rw [encode_of_decode hd] at hstep
  exact ⟨_, hstep, rfl⟩

/-- Settles O35: the first check that fails names the error; and a negative word is at or above 2^31 in the unsigned view. -/
theorem dataAccessErrors : Obligations.DataAccessErrors := by
  refine ⟨fun s w i ea hn hi => ⟨fun hmis => ?_, fun halign hout => ?_⟩, fun s ea hm hneg => ?_⟩
  · exact step_fails_of_accessError hn hi (if_pos hmis)
  · exact step_fails_of_accessError hn hi ((if_neg (not_not.mpr halign)).trans (if_pos hout))
  · have := BitVec.toInt_neg_iff.mp hneg
    omega

/-! ## What no step changes -/

/-- No instruction changes IMEM or MEM_WORDS. -/
theorem exec_keeps_program {i : Instr} {s t : State} (h : exec i s = .next t) :
    t.imem = s.imem ∧ t.memWords = s.memWords := by
  rcases exec_cases h with ⟨rd, v, n, -, -, -, rfl⟩ | ⟨-, -, -, n, -, -, rfl⟩ | ⟨rs2, rs1, imm, -, -, rfl⟩ |
    ⟨-, -, k, -, -, -, rfl, -⟩
  · simp
  all_goals exact ⟨rfl, rfl⟩

/-- No step changes IMEM or MEM_WORDS (R10, R46). -/
theorem step_keeps_program {s t : State} (h : step s = .next t) : t.imem = s.imem ∧ t.memWords = s.memWords := by
  rcases step_cases h with ⟨-, rfl⟩ | ⟨-, k, -, rfl⟩ | ⟨-, -, rfl⟩ | ⟨-, w, -, -, -, rfl⟩ | ⟨-, w, i, -, -, hx⟩
  · exact ⟨rfl, rfl⟩
  · exact ⟨rfl, rfl⟩
  · exact ⟨rfl, rfl⟩
  · exact ⟨rfl, rfl⟩
  · exact exec_keeps_program hx

/-- Settles O47: fetch looks at pc and IMEM only, and no step of a run changes IMEM. -/
theorem programIsImmutable : Obligations.ProgramIsImmutable := by
  refine ⟨fun s m => rfl, run_induction (fun s => ⟨rfl, rfl⟩) fun s u t hu ⟨himem, hwords⟩ => ?_⟩
  obtain ⟨himem', hwords'⟩ := step_keeps_program hu
  exact ⟨himem.trans himem', hwords.trans hwords'⟩

/-! ## The value of a word along a run -/

/-- The memory stage does to a word what the record of its effect says was stored there (R78, R84). -/
theorem memoryStage_storedBy {g : Signals} {s t : State} {ea : Word} {r : TraceRecord} (hea : s.Accessible ea)
    (h : memoryStage g s = .ok (r.memEffect, t)) :
    t.mem.readWord ea.toNat = storedBy ea (s.mem.readWord ea.toNat) r := by
  rcases memoryStage_ok_cases h with ⟨-, -, he, rfl⟩ | ⟨-, -, ha, he, rfl⟩ | ⟨-, -, he, rfl⟩
  · rw [storedBy, he]
  · rw [storedBy, he]
    exact readWord_writeWord_of_aligned ha.1 hea.1 _ _
  · rw [storedBy, he]

/-- The cycle of a decoded instruction does to a word what its record, if it emits one, says was stored there. -/
theorem datapathCycle_lastStored {s : State} {ea : Word} (hea : s.Accessible ea) (d : Decoded) (raw raw' : Word) :
    (datapathCycle d raw s).mem.readWord ea.toNat =
      lastStored ea (s.mem.readWord ea.toNat) (recordTrace d raw' s).toList := by
  cases hm : memoryStage (signals d s) s with
  | error k =>
    simp only [datapathCycle, recordTrace, hm]
    rfl
  | ok p =>
    simp only [datapathCycle, recordTrace, hm, retire_mem, applyWriteback_mem]
    exact memoryStage_storedBy hea hm

/-- One step does to a word what the record it emits, if any, says was stored there. -/
theorem step_lastStored {s u : State} {ea : Word} (hea : s.Accessible ea) (h : step s = .next u) :
    u.mem.readWord ea.toNat = lastStored ea (s.mem.readWord ea.toNat) (traceOf s).toList := by
  rcases step_cases h with ⟨he, rfl⟩ | ⟨hr, k, hf, rfl⟩ | ⟨hr, hf, rfl⟩ | ⟨hr, w, why, hf, hd, rfl⟩ | ⟨hr, w, i, hf, hd, hx⟩
  · rw [traceOf_of_ended he]
    rfl
  · rw [traceOf_of_fetch_error hr hf]
    rfl
  · rw [traceOf_of_exhausted hr hf]
    rfl
  · rw [traceOf_of_decode_error hr hf hd]
    rfl
  · rw [traceOf_of_decode_ok hr hf hd]
    rw [exec_eq_datapathCycle] at hx
    cases hx
    exact datapathCycle_lastStored hea ..

theorem lastStored_append (ea v : Word) (before after : List TraceRecord) :
    lastStored ea v (before ++ after) = lastStored ea (lastStored ea v before) after :=
  List.foldl_append

/-- The checks of an access look at no part of the state but MEM_WORDS. -/
theorem accessible_of_memWords_eq {s t : State} {ea : Word} (hea : s.Accessible ea) (h : t.memWords = s.memWords) :
    t.Accessible ea :=
  ⟨hea.1, h ▸ hea.2⟩

/-- Along every run a word holds what the run's last store to it wrote. -/
theorem run_lastStored (n : Nat) : ∀ (s t : State) (ea : Word), s.Accessible ea → Host.Core.run core n s = .next t →
    t.mem.readWord ea.toNat = lastStored ea (s.mem.readWord ea.toNat) (traceRun n s) := by
  induction n with
  | zero =>
    intro s t ea _ h
    cases h
    rfl
  | succ n ih =>
    intro s t ea hea h
    obtain ⟨u, hu, hrest⟩ := run_succ_cases h
    have hea' := accessible_of_memWords_eq hea (step_keeps_program hu).2
    rw [traceRun_succ hu, lastStored_append, ← step_lastStored hea hu, ih u t ea hea' hrest]

/-- A lw of an accessible word reads it into its destination (R93). -/
theorem exec_lw_of_accessible {s : State} {rs1 : RegIdx} {imm : Word} (h : s.Accessible (s.getReg rs1 + imm)) (rd : RegIdx) :
    exec (.lw rd rs1 imm) s =
      .next ((s.setReg rd (s.mem.readWord (s.getReg rs1 + imm).toNat)).retire (s.pc + 4#32)) := by
  simp only [exec, execLw, effAddr_eq, memRead_of_accessible h, pcPlus4_eq]

/-- Settles O36: the memory is the fold of the run's stores, by induction on its length, and a load reads that memory. -/
theorem loadSeesMostRecentStore : Obligations.LoadSeesMostRecentStore := by
  intro n s t ea hea h
  have hword := run_lastStored n s t ea hea h
  have heat := accessible_of_memWords_eq hea (programIsImmutable.2 n s t h).2
  refine ⟨hword, fun w rd rs1 imm hn heq hrd => ?_⟩
  subst heq
  refine ⟨_, (step_of_runsNext hn).trans (exec_lw_of_accessible heat rd), ?_⟩
  rw [retire_getReg, getReg_setReg, if_pos ⟨rfl, hrd⟩, hword]

end Sys2Proof.Machine

/-! PROOFS. Encoding (R50 to R65): the immediates bit by bit, the decoded record by format (`decodeRecord_ok`), and everything
the decoder rejects (`decode_eq_error_iff`), the other half of `decode_eq_ok_iff`. -/

namespace Sys2Proof

/-! ## Immediates bit by bit (R53 to R56) -/

/-- A sign-extended field has the field's bits, and its top bit above them. -/
theorem getLsbD_signExtend_field {n k : Nat} (hn : 0 < n) (hk : k < 32) (f : BitVec n) :
    (f.signExtend 32).getLsbD k = f.getLsbD (min k (n - 1)) := by
  rw [BitVec.getLsbD_signExtend, decide_eq_true hk, Bool.true_and, BitVec.msb_eq_getLsbD_last]
  split
  · rw [min_eq_left (by omega)]
  · rw [min_eq_right (by omega)]

theorem getLsbD_immIOf (w : Word) {k : Nat} (hk : k < 32) :
    (immIOf w).getLsbD k = if k < 12 then w.getLsbD (20 + k) else w.getLsbD 31 := by
  rw [immIOf, getLsbD_signExtend_field (by omega) hk]
  simp only [BitVec.getLsbD_extractLsb']
  interval_cases k <;> simp

theorem getLsbD_immSOf (w : Word) {k : Nat} (hk : k < 32) :
    (immSOf w).getLsbD k =
      if k < 5 then w.getLsbD (7 + k) else if k < 12 then w.getLsbD (20 + k) else w.getLsbD 31 := by
  rw [immSOf, getLsbD_signExtend_field (by omega) hk]
  simp only [BitVec.getLsbD_append, BitVec.getLsbD_extractLsb']
  interval_cases k <;> simp

theorem getLsbD_immSBOf (w : Word) {k : Nat} (hk : k < 32) :
    (immSBOf w).getLsbD k =
      if k = 0 then false else if k < 5 then w.getLsbD (7 + k) else if k < 11 then w.getLsbD (20 + k)
      else if k = 11 then w.getLsbD 7 else w.getLsbD 31 := by
  rw [immSBOf, getLsbD_signExtend_field (by omega) hk]
  simp only [BitVec.getLsbD_append, BitVec.getLsbD_extractLsb']
  interval_cases k <;> simp

theorem getLsbD_immUJOf (w : Word) {k : Nat} (hk : k < 32) :
    (immUJOf w).getLsbD k =
      if k = 0 then false else if k < 11 then w.getLsbD (20 + k) else if k = 11 then w.getLsbD 20
      else if k < 20 then w.getLsbD k else w.getLsbD 31 := by
  rw [immUJOf, getLsbD_signExtend_field (by omega) hk]
  simp only [BitVec.getLsbD_append, BitVec.getLsbD_extractLsb']
  interval_cases k <;> simp

theorem imm12Fits_iff {imm : Word} : imm12Fits imm = true ↔ -2048 ≤ imm.toInt ∧ imm.toInt ≤ 2047 := by
  simp only [imm12Fits, Bool.and_eq_true, decide_eq_true_eq]

theorem offset13Fits_iff {off : Word} :
    offset13Fits off = true ↔ (-4096 ≤ off.toInt ∧ off.toInt ≤ 4094) ∧ off.getLsbD 0 = false := by
  simp only [offset13Fits, Bool.and_eq_true, decide_eq_true_eq, Bool.not_eq_true']

theorem offset21Fits_iff {off : Word} :
    offset21Fits off = true ↔ (-1048576 ≤ off.toInt ∧ off.toInt ≤ 1048574) ∧ off.getLsbD 0 = false := by
  simp only [offset21Fits, Bool.and_eq_true, decide_eq_true_eq, Bool.not_eq_true']

/-! ## The record by format (R60) -/

/-- The record of a format whose fields are the word's, at the places of R50 and R53 to R56. -/
def recordOfWord (f : Format) (op : Opcode) (m : Mnemonic) (w : Word) : Decoded :=
  match f with
  | .R => recordR m (funct3Of w) (funct7Of w) (rdOf w) (rs1Of w) (rs2Of w)
  | .I => recordI op m (funct3Of w) (rdOf w) (rs1Of w) (immIOf w)
  | .S =>
    { fmt := .S, opcode := op, mnemonic := m, rd := none, funct3 := some (funct3Of w), rs1 := some (rs1Of w),
      rs2 := some (rs2Of w), funct7 := none, imm := some (immSOf w) }
  | .SB =>
    { fmt := .SB, opcode := op, mnemonic := m, rd := none, funct3 := some (funct3Of w), rs1 := some (rs1Of w),
      rs2 := some (rs2Of w), funct7 := none, imm := some (immSBOf w) }
  | .UJ =>
    { fmt := .UJ, opcode := op, mnemonic := m, rd := some (rdOf w), funct3 := none, rs1 := none, rs2 := none,
      funct7 := none, imm := some (immUJOf w) }

/-- The key of a row is its record's opcode, and the fields the row fixes are the word's own. -/
theorem record_of_keyHolds {m : Mnemonic} {w : Word} (h : m.keyHolds w) :
    (instrOfWord m w).record.opcode.code = opcodeOf w ∧ (instrOfWord m w).record =
      recordOfWord (instrOfWord m w).record.fmt (instrOfWord m w).record.opcode m w := by
  cases m <;> simp only [Mnemonic.keyHolds] at h <;>
    simp [instrOfWord, Instr.record, recordR, recordI, recordOfWord, h]

/-- What the decoder block answers (R58, R60): the record of a format with the word's fields, under the word's own opcode and
row. -/
theorem decodeRecord_ok {w : Word} {d : Decoded} (h : decodeRecord w = .ok d) :
    d.opcode.code = opcodeOf w ∧ d.mnemonic.Selects w ∧ d = recordOfWord d.fmt d.opcode d.mnemonic w := by
  cases hd : decode w with
  | error why =>
    rw [decodeRecord, hd] at h
    cases h
  | ok i =>
    rw [decodeRecord, hd] at h
    cases h
    obtain ⟨hsel, hi⟩ := decode_eq_ok_iff.mp hd
    obtain ⟨hop, hrec⟩ := record_of_keyHolds ((selects_iff _ _).mp hsel)
    rw [← hi] at hop hrec
    exact ⟨hop, hsel, hrec⟩

/-- The immediate of a decoded record is its format's (R53 to R57). -/
theorem decodeRecord_imm {w : Word} {d : Decoded} {f : Format} (h : decodeRecord w = .ok d) (hf : d.fmt = f) :
    d.imm = (recordOfWord f d.opcode d.mnemonic w).imm := by
  obtain ⟨-, -, hd⟩ := decodeRecord_ok h
  rw [← hf, ← hd]

/-! ## What the decoder rejects (R61) -/

/-- The keys of the R table (R59). -/
def rKeys : List (BitVec 3 × BitVec 7) :=
  [(0b000#3, 0b0000000#7), (0b000#3, 0b0100000#7), (0b111#3, 0b0000000#7), (0b110#3, 0b0000000#7), (0b010#3, 0b0000000#7)]

/-- The words of each case (a) to (e) of R61. -/
def DecodeReject.caseHolds (why : DecodeReject) (w : Word) : Prop :=
  match why with
  | .unknownOpcode => ∀ op : Opcode, opcodeOf w ≠ op.code
  | .unknownRKey => opcodeOf w = Opcode.code .rType ∧ (funct3Of w, funct7Of w) ∉ rKeys
  | .unknownIKey =>
    (opcodeOf w = Opcode.code .lw ∧ funct3Of w ≠ 0b010#3) ∨
    (opcodeOf w = Opcode.code .iArith ∧ funct3Of w ∉ [0b000#3, 0b111#3, 0b110#3]) ∨
    (opcodeOf w = Opcode.code .jalr ∧ funct3Of w ≠ 0b000#3)
  | .unknownSKey => opcodeOf w = Opcode.code .sw ∧ funct3Of w ≠ 0b010#3
  | .unknownSBKey => opcodeOf w = Opcode.code .beq ∧ funct3Of w ≠ 0b000#3

/-- A table entry rejects nothing: the rest of the table does, on the words without the entry's key. -/
theorem ite_ok_eq_error_iff {p : Prop} [Decidable p] {i : Instr} {rest : Except DecodeReject Instr} {why : DecodeReject} :
    (if p then .ok i else rest) = .error why ↔ ¬p ∧ rest = .error why := by
  split
  · next hp => simp [hp]
  · next hp => simp [hp]

theorem decodeR_eq_error_iff {w : Word} {why : DecodeReject} :
    decodeR w = .error why ↔ (funct3Of w, funct7Of w) ∉ rKeys ∧ why = .unknownRKey := by
  simp [decodeR, ite_ok_eq_error_iff, rKeys, and_assoc, eq_comm (a := why)]

theorem decodeLoad_eq_error_iff {w : Word} {why : DecodeReject} :
    decodeLoad w = .error why ↔ funct3Of w ≠ 0b010#3 ∧ why = .unknownIKey := by
  simp [decodeLoad, ite_ok_eq_error_iff, eq_comm (a := why)]

theorem decodeIArith_eq_error_iff {w : Word} {why : DecodeReject} :
    decodeIArith w = .error why ↔ funct3Of w ∉ [0b000#3, 0b111#3, 0b110#3] ∧ why = .unknownIKey := by
  simp [decodeIArith, ite_ok_eq_error_iff, and_assoc, eq_comm (a := why)]

theorem decodeJalr_eq_error_iff {w : Word} {why : DecodeReject} :
    decodeJalr w = .error why ↔ funct3Of w ≠ 0b000#3 ∧ why = .unknownIKey := by
  simp [decodeJalr, ite_ok_eq_error_iff, eq_comm (a := why)]

theorem decodeStore_eq_error_iff {w : Word} {why : DecodeReject} :
    decodeStore w = .error why ↔ funct3Of w ≠ 0b010#3 ∧ why = .unknownSKey := by
  simp [decodeStore, ite_ok_eq_error_iff, eq_comm (a := why)]

theorem decodeBranch_eq_error_iff {w : Word} {why : DecodeReject} :
    decodeBranch w = .error why ↔ funct3Of w ≠ 0b000#3 ∧ why = .unknownSBKey := by
  simp [decodeBranch, ite_ok_eq_error_iff, eq_comm (a := why)]

theorem caseHolds_of_decode {w : Word} {why : DecodeReject} (h : decode w = .error why) : why.caseHolds w := by
  cases hop : opcodeFrom (opcodeOf w) with
  | none =>
    rw [decode, hop] at h
    cases h
    exact opcodeFrom_eq_none.mp hop
  | some op =>
    rw [decode, hop] at h
    rw [opcodeFrom_eq_some] at hop
    cases op with
    | rType => obtain ⟨hk, rfl⟩ := decodeR_eq_error_iff.mp h; exact ⟨hop, hk⟩
    | lw => obtain ⟨hk, rfl⟩ := decodeLoad_eq_error_iff.mp h; exact .inl ⟨hop, hk⟩
    | iArith => obtain ⟨hk, rfl⟩ := decodeIArith_eq_error_iff.mp h; exact .inr (.inl ⟨hop, hk⟩)
    | sw => obtain ⟨hk, rfl⟩ := decodeStore_eq_error_iff.mp h; exact ⟨hop, hk⟩
    | beq => obtain ⟨hk, rfl⟩ := decodeBranch_eq_error_iff.mp h; exact ⟨hop, hk⟩
    | jal => cases h
    | jalr => obtain ⟨hk, rfl⟩ := decodeJalr_eq_error_iff.mp h; exact .inr (.inr ⟨hop, hk⟩)

theorem decode_of_caseHolds {w : Word} {why : DecodeReject} (h : why.caseHolds w) : decode w = .error why := by
  cases why with
  | unknownOpcode => rw [decode, opcodeFrom_eq_none.mpr h]
  | unknownRKey =>
    obtain ⟨hop, hk⟩ := h
    rw [decode, hop, opcodeFrom_code]
    exact decodeR_eq_error_iff.mpr ⟨hk, rfl⟩
  | unknownIKey =>
    rcases h with ⟨hop, hk⟩ | ⟨hop, hk⟩ | ⟨hop, hk⟩ <;> rw [decode, hop, opcodeFrom_code]
    · exact decodeLoad_eq_error_iff.mpr ⟨hk, rfl⟩
    · exact decodeIArith_eq_error_iff.mpr ⟨hk, rfl⟩
    · exact decodeJalr_eq_error_iff.mpr ⟨hk, rfl⟩
  | unknownSKey =>
    obtain ⟨hop, hk⟩ := h
    rw [decode, hop, opcodeFrom_code]
    exact decodeStore_eq_error_iff.mpr ⟨hk, rfl⟩
  | unknownSBKey =>
    obtain ⟨hop, hk⟩ := h
    rw [decode, hop, opcodeFrom_code]
    exact decodeBranch_eq_error_iff.mpr ⟨hk, rfl⟩

/-- Everything the decoder rejects (R61), as `decode_eq_ok_iff` says everything it accepts. -/
theorem decode_eq_error_iff {w : Word} {why : DecodeReject} : decode w = .error why ↔ why.caseHolds w :=
  ⟨caseHolds_of_decode, decode_of_caseHolds⟩

theorem forall_ne_code_iff {b : BitVec 7} : (∀ op : Opcode, b ≠ op.code) ↔
    b ∉ [0b0110011#7, 0b0000011#7, 0b0010011#7, 0b0100011#7, 0b1100011#7, 0b1101111#7, 0b1100111#7] := by
  constructor
  · intro h
    simpa [Opcode.code] using ⟨h .rType, h .lw, h .iArith, h .sw, h .beq, h .jal, h .jalr⟩
  · rintro h op rfl
    revert h
    cases op <;> decide

/-- Every opcode of the table has bits 1:0 set, so a word without them has none of the seven (R61). -/
theorem opcodeOf_ne_code_of_low_bits {w : Word} (h : w.extractLsb' 0 2 ≠ 0b11#2) (op : Opcode) : opcodeOf w ≠ op.code := by
  intro hop
  have hlow : w.extractLsb' 0 2 = (opcodeOf w).extractLsb' 0 2 := by
    apply BitVec.eq_of_getLsbD_eq
    intro i hi
    simp only [opcodeOf, BitVec.getLsbD_extractLsb']
    interval_cases i <;> simp
  rw [hlow, hop] at h
  cases op <;> exact h rfl

end Sys2Proof

namespace Sys2Proof.Machine

/-- Settles O8: the record is the one `recordOfWord` makes of the word, format by format. -/
theorem decodedRecordFields : Obligations.DecodedRecordFields := by
  intro w d h
  obtain ⟨hop, hsel, hd⟩ := decodeRecord_ok h
  refine ⟨hop, hsel, ?_, ?_, ?_, ?_, ?_⟩
  all_goals
    intro hf
    rw [hd, hf]
    exact ⟨rfl, rfl, rfl, rfl, rfl, rfl⟩

/-- Settles O4: bit by bit from `getLsbD_immIOf`; the range is that of a 12-bit field. -/
theorem immediateOfIFormat : Obligations.ImmediateOfIFormat := by
  refine ⟨fun w d h hf => ⟨immIOf w, decodeRecord_imm h hf, fun k hk => ?_, fun k hlo hk => ?_,
    imm12Fits_iff.mp (imm12Fits_immIOf w)⟩, fun w h => ?_⟩
  · rw [getLsbD_immIOf w (by omega), if_pos hk]
  · rw [getLsbD_immIOf w hk, if_neg (by omega)]
  · rw [immIOf, h]
    rfl

/-- Settles O5: bit by bit from `getLsbD_immSOf`; the range is that of a 12-bit field. -/
theorem immediateOfSFormat : Obligations.ImmediateOfSFormat := by
  refine fun w d h hf => ⟨immSOf w, decodeRecord_imm h hf, fun k hk => ?_, fun k hlo hk => ?_, fun k hlo hk => ?_,
    imm12Fits_iff.mp (imm12Fits_immSOf w)⟩
  · rw [getLsbD_immSOf w (by omega), if_pos hk]
  · rw [getLsbD_immSOf w (by omega), if_neg (by omega), if_pos hk]
  · rw [getLsbD_immSOf w hk, if_neg (by omega), if_neg (by omega)]

/-- A beq of two equal registers is taken (R95). -/
theorem exec_beq_of_eq {rs1 rs2 : RegIdx} {s : State} (off : Word) (h : s.getReg rs1 = s.getReg rs2) :
    exec (.beq rs1 rs2 off) s = .next (s.retire (s.pc + off)) := by
  rw [exec, execBeq, if_pos ((zeroFlag_sub_iff _ _).mpr h), pcTarget_eq]

/-- Settles O6: bit by bit from `getLsbD_immSBOf`; the range is that of an even 13-bit field; a taken beq adds the offset. -/
theorem immediateOfSBFormat : Obligations.ImmediateOfSBFormat := by
  refine ⟨fun w d h hf => ⟨immSBOf w, decodeRecord_imm h hf, immSBOf_bit0 w, fun k hlo hk => ?_, fun k hlo hk => ?_, ?_,
    fun k hlo hk => ?_, toInt_even _ (immSBOf_bit0 w), (offset13Fits_iff.mp (offset13Fits_immSBOf w)).1⟩,
    fun rs1 rs2 off s h => ⟨_, exec_beq_of_eq off h, rfl⟩⟩
  · rw [getLsbD_immSBOf w (by omega), if_neg (by omega), if_pos hk]
  · rw [getLsbD_immSBOf w (by omega), if_neg (by omega), if_neg (by omega), if_pos hk]
  · exact getLsbD_immSBOf w (by omega)
  · rw [getLsbD_immSBOf w hk, if_neg (by omega), if_neg (by omega), if_neg (by omega), if_neg (by omega)]

/-- Settles O7: bit by bit from `getLsbD_immUJOf`; the range is that of an even 21-bit field; jal adds the offset. -/
theorem immediateOfUJFormat : Obligations.ImmediateOfUJFormat := by
  refine ⟨fun w d h hf => ⟨immUJOf w, decodeRecord_imm h hf, immUJOf_bit0 w, fun k hlo hk => ?_, ?_, fun k hlo hk => ?_,
    fun k hlo hk => ?_, toInt_even _ (immUJOf_bit0 w), (offset21Fits_iff.mp (offset21Fits_immUJOf w)).1⟩,
    fun rd off s => ⟨_, rfl, rfl⟩⟩
  · rw [getLsbD_immUJOf w (by omega), if_neg (by omega), if_pos hk]
  · exact getLsbD_immUJOf w (by omega)
  · rw [getLsbD_immUJOf w (by omega), if_neg (by omega), if_neg (by omega), if_neg (by omega), if_pos hk]
  · rw [getLsbD_immUJOf w hk, if_neg (by omega), if_neg (by omega), if_neg (by omega), if_neg (by omega)]

/-- Settles O9: each clause is one case of `decode_eq_error_iff`. -/
theorem decodeErrorSpace : Obligations.DecodeErrorSpace := by
  refine ⟨fun w => decode_eq_error_iff.trans forall_ne_code_iff, fun w => decode_eq_error_iff, fun w => decode_eq_error_iff,
    fun w => decode_eq_error_iff, fun w => decode_eq_error_iff, fun w h => ?_, rfl⟩
  exact decode_of_caseHolds (opcodeOf_ne_code_of_low_bits h)

theorem rejected_of_caseHolds {w : Word} {why : DecodeReject} (h : why.caseHolds w) : Rejected w :=
  ⟨why, decode_of_caseHolds h⟩

/-- Settles O10: each class of words lies in one case of R61, because its values are not keys of that case's table. -/
theorem otherRiscvEncodingsRejected : Obligations.OtherRiscvEncodingsRejected := by
  refine ⟨fun w hop => ?_, fun w hop h3 => ?_, fun w hop h3 => ?_, fun w hop h3 => ?_, fun w hop h3 => ?_,
    fun w hop h3 => ?_, fun w hop h7 => ?_, fun w hop h3 h7 => ?_, fun w hop h3 => ?_⟩
  · refine rejected_of_caseHolds (why := .unknownOpcode) fun op => ne_of_mem_of_not_mem hop ?_
    cases op <;> decide
  · exact rejected_of_caseHolds (why := .unknownSBKey) ⟨hop, ne_of_mem_of_not_mem h3 (by decide)⟩
  · exact rejected_of_caseHolds (why := .unknownIKey) (.inl ⟨hop, ne_of_mem_of_not_mem h3 (by decide)⟩)
  · exact rejected_of_caseHolds (why := .unknownSKey) ⟨hop, ne_of_mem_of_not_mem h3 (by decide)⟩
  · have hkeys : ∀ f3 ∈ [0b000#3, 0b111#3, 0b110#3], f3 ∉ [0b010#3, 0b011#3, 0b100#3, 0b001#3, 0b101#3] := by decide
    exact rejected_of_caseHolds (why := .unknownIKey) (.inr (.inl ⟨hop, fun hk => hkeys _ hk h3⟩))
  · have hkeys : ∀ key ∈ rKeys, key.1 ∉ [0b001#3, 0b011#3, 0b100#3, 0b101#3] := by simp [rKeys]
    exact rejected_of_caseHolds (why := .unknownRKey) ⟨hop, fun hk => hkeys _ hk h3⟩
  · have hkeys : ∀ key ∈ rKeys, key.2 ≠ 0b0000001#7 := by simp [rKeys]
    exact rejected_of_caseHolds (why := .unknownRKey) ⟨hop, fun hk => hkeys _ hk h7⟩
  · have hkeys : ∀ key ∈ rKeys, key.1 ∈ [0b111#3, 0b110#3, 0b010#3] → key.2 ≠ 0b0100000#7 := by simp [rKeys]
    exact rejected_of_caseHolds (why := .unknownRKey) ⟨hop, fun hk => hkeys _ hk h3 h7⟩
  · exact rejected_of_caseHolds (why := .unknownIKey) (.inr (.inr ⟨hop, h3⟩))

/-- A row selects the words that decode to its instruction with the word's fields (R65). -/
theorem decode_of_selects {m : Mnemonic} {w : Word} (h : m.Selects w) : decode w = .ok (instrOfWord m w) :=
  decode_of_keyHolds ((selects_iff m w).mp h)

/-- Settles O11: `decode_eq_ok_iff` row by row; two rows that select one word name one instruction of it. -/
theorem tableRowsSelect : Obligations.TableRowsSelect := by
  refine ⟨fun m w => ⟨?_, fun h => ⟨_, decode_of_selects h, mnemonic_instrOfWord m w⟩⟩, fun m m' w h h' => ?_⟩
  · rintro ⟨i, hd, rfl⟩
    exact (decode_eq_ok_iff.mp hd).1
  · have hi : instrOfWord m w = instrOfWord m' w :=
      Except.ok.inj ((decode_of_selects h).symm.trans (decode_of_selects h'))
    simpa only [mnemonic_instrOfWord] using congrArg Instr.mnemonic hi

end Sys2Proof.Machine

/-! PROOFS. The datapath blocks: the control table (R69), the ALU (R74), the fetch of a cycle (R81), and the trace record (R84).
The record and the next state read one memory stage and one writeback, so each of the two is said once, by cases, and the
record's statement is put together from them. -/

namespace Sys2Proof.Machine

/-! ## The control table and the ALU -/

/-- Settles O13: the table's rows. -/
theorem controlTableRows : Obligations.ControlTableRows :=
  ⟨controlUnit_rType, controlUnit_lw, controlUnit_sw, controlUnit_iArith, controlUnit_beq, controlUnit_jal, controlUnit_jalr⟩

/-- SUB in the unsigned view (R74). -/
theorem alu_SUB_toNat (a b : Word) : (alu .SUB a b).toNat = (a.toNat + 2 ^ 32 - b.toNat) % 2 ^ 32 := by
  have hb := b.isLt
  rw [alu, BitVec.toNat_sub, Nat.add_comm a.toNat, Nat.sub_add_comm hb.le]

/-- Settles O16: the ALU's operations are those of words, and each view of a word has the library's law for each. -/
theorem aluResults : Obligations.AluResults :=
  ⟨BitVec.toNat_add, alu_SUB_toNat, BitVec.toInt_add, fun _ _ => BitVec.toInt_sub, fun _ _ _ => BitVec.getLsbD_and,
    fun _ _ _ => BitVec.getLsbD_or, fun _ _ => rfl, fun _ => beq_iff_eq⟩

/-! ## Fetch -/

/-- Fetch at or past the end of the program (R81). -/
theorem fetch_eq_exhausted {s : State} (hpc : FetchablePc s.pc) (hend : 4 * s.imem.length ≤ s.pc.toNat) :
    s.fetch = .exhausted := by
  obtain ⟨halign, hlow⟩ := hpc
  rcases fetch_cases s with ⟨hmis, -⟩ | ⟨-, hhigh, -⟩ | ⟨-, -, hf⟩ | ⟨-, hin, -⟩
  · exact absurd halign hmis
  · omega
  · exact hf
  · omega

/-- A pc whose bits pass the two checks of fetch is fetchable. -/
theorem fetchablePc_of_bits {pc : Word} (hlow2 : pc.extractLsb' 0 2 = 0b00#2) (h31 : pc.getLsbD 31 = false) :
    FetchablePc pc :=
  ⟨(low2_eq_zero_iff pc).mp hlow2, (bit31_eq_false_iff pc).mp h31⟩

/-- Settles O38: the first check of fetch that fails names the error, and a fetchable pc lies inside the program or past it. -/
theorem fetchClassifiesPc : Obligations.FetchClassifiesPc := by
  intro s hr
  refine ⟨fun hmis => ?_, fun halign h31 => ?_, fun halign h31 hend => ?_, fun halign h31 hin => ?_⟩
  · have hf : s.fetch = .error .unalignedAccessError := if_pos hmis
    exact ⟨_, step_of_fetch_error hr hf, rfl⟩
  · have hf : s.fetch = .error .outOfRangeAccessError := (if_neg (not_not.mpr halign)).trans (if_pos h31)
    exact ⟨_, step_of_fetch_error hr hf, rfl⟩
  · exact step_of_exhausted hr (fetch_eq_exhausted (fetchablePc_of_bits halign h31) hend)
  · have hw := List.getElem?_eq_getElem (l := s.imem) (i := s.pc.toNat / 4) (by omega)
    exact ⟨_, hw, fetch_eq_word (fetchablePc_of_bits halign h31) hw⟩

/-! ## The signals of a decoded instruction -/

/-- The ALU result of a record that has both operands (R75). -/
theorem aluResult_of_operands {d : Decoded} {s : State} {rs1 : RegIdx} {b : Word} (h1 : d.rs1 = some rs1)
    (hb : operandB d s = some b) : aluResult d s = alu (resolvedOp d) (s.getReg rs1) b := by
  simp only [aluResult, h1, hb, Option.map_some]

/-- An instruction with a first operand has a second: its immediate or its rs2 (R60, R75). -/
theorem exists_operandB {i : Instr} {rs1 : RegIdx} (s : State) (h : i.record.rs1 = some rs1) :
    ∃ b, operandB i.record s = some b := by
  cases i with
  | jal rd off => cases h
  | _ => exact ⟨_, rfl⟩

/-- MemRead is asserted for lw only (R69). -/
theorem memRead_iff_lw (i : Instr) : (controlUnit i.record.opcode).memRead = true ↔ i.record.mnemonic = .lw := by
  cases i <;> simp [Instr.record, recordR, recordI]

/-- MemWrite is asserted for sw only (R69). -/
theorem memWrite_iff_sw (i : Instr) : (controlUnit i.record.opcode).memWrite = true ↔ i.record.mnemonic = .sw := by
  cases i <;> simp [Instr.record, recordR, recordI]

/-- What a store stores is the value of its read port B (R78). -/
theorem portB_of_sw {i : Instr} (s : State) (h : i.record.mnemonic = .sw) :
    i.record.rs2.map s.getReg = some ((i.record.rs2.map s.getReg).getD 0#32) := by
  cases i with
  | sw rs2 rs1 imm => rfl
  | _ => cases h

/-- Every instruction with a destination asserts RegWrite (R69). -/
theorem regWrite_of_rd {i : Instr} {rd : RegIdx} (h : i.record.rd = some rd) :
    (controlUnit i.record.opcode).regWrite = true := by
  cases i with
  | sw | beq => cases h
  | _ => rfl

/-! ## The memory stage and the writeback of a decoded instruction -/

/-- The memory effect of an instruction, by its mnemonic, and the data memory the stage leaves (R78, R84). -/
theorem memoryStage_record_cases {i : Instr} {s m : State} {e : MemEffect}
    (h : memoryStage (signals i.record s) s = .ok (e, m)) :
    (e = .none ∧ i.record.mnemonic ≠ .lw ∧ i.record.mnemonic ≠ .sw ∧ m.mem = s.mem) ∨
    (e = .read (aluResult i.record s) (s.mem.readWord (aluResult i.record s).toNat) ∧ i.record.mnemonic = .lw ∧
      m.mem = s.mem) ∨
    (∃ v, e = .write (aluResult i.record s) v ∧ i.record.mnemonic = .sw ∧ i.record.rs2.map s.getReg = some v ∧
      m.mem = s.mem.writeWord (aluResult i.record s).toNat v) := by
  rcases memoryStage_ok_cases h with ⟨hr, -, he, rfl⟩ | ⟨-, hw, -, he, rfl⟩ | ⟨hr, hw, he, rfl⟩
  · exact .inr (.inl ⟨he, (memRead_iff_lw i).mp hr, rfl⟩)
  · have hsw := (memWrite_iff_sw i).mp hw
    exact .inr (.inr ⟨_, he, hsw, portB_of_sw s hsw, rfl⟩)
  · exact .inl ⟨he, fun hlw => Bool.eq_false_iff.mp hr ((memRead_iff_lw i).mpr hlw),
      fun hsw => Bool.eq_false_iff.mp hw ((memWrite_iff_sw i).mpr hsw), rfl⟩

/-- The memory stage writes no register. -/
theorem memoryStage_getReg {g : Signals} {s m : State} {e : MemEffect} (h : memoryStage g s = .ok (e, m)) (r : RegIdx) :
    m.getReg r = s.getReg r := by
  rcases memoryStage_ok_cases h with ⟨-, -, -, rfl⟩ | ⟨-, -, -, -, rfl⟩ | ⟨-, -, -, rfl⟩ <;> rfl

/-- Writeback writes the record's own destination or, where that is x0 or there is none, nothing (R79). -/
theorem writebackOf_record_cases (i : Instr) (e : MemEffect) (s : State) :
    (writebackOf i.record (signals i.record s) e s = none ∧ (i.record.rd = none ∨ i.record.rd = some 0#5)) ∨
    ∃ rd v, writebackOf i.record (signals i.record s) e s = some (rd, v) ∧ i.record.rd = some rd ∧ rd ≠ 0#5 := by
  cases hrd : i.record.rd with
  | none => exact .inl ⟨by simp only [writebackOf, hrd], .inl rfl⟩
  | some rd =>
    have hctl : (signals i.record s).ctl.regWrite = true := regWrite_of_rd hrd
    by_cases h0 : rd = 0#5
    · exact .inl ⟨by simp [writebackOf, hrd, h0], .inr (by rw [h0])⟩
    · cases hl : (signals i.record s).ctl.linkReg with
      | true => exact .inr ⟨rd, s.pcPlus4, by simp [writebackOf, hrd, h0, hl], rfl, h0⟩
      | false =>
        exact .inr ⟨rd, writebackValue (signals i.record s) e, by simp [writebackOf, hrd, h0, hl, hctl], rfl, h0⟩

/-- A register write of Writeback, of a register other than x0, is the only change of the registers. -/
theorem onlyRegWritten_of_writeback {s m : State} {rd : RegIdx} {v : Word} (hm : ∀ r, m.getReg r = s.getReg r)
    (h0 : rd ≠ 0#5) (next : Word) : OnlyRegWritten s ((applyWriteback (some (rd, v)) m).retire next) rd v := by
  refine ⟨?_, fun r hr => ?_⟩
  · rw [retire_getReg, applyWriteback, getReg_setReg, if_pos ⟨rfl, h0⟩, if_neg h0]
  · rw [retire_getReg, applyWriteback, getReg_setReg, if_neg fun h => hr h.1, hm]

/-! ## The trace record of a cycle -/

/-- The record of the cycle of a decoded instruction whose memory stage has the effect `e` (R84). -/
def retiredRecord (d : Decoded) (raw : Word) (e : MemEffect) (s : State) : TraceRecord :=
  { cycle := s.count + 1
    raw := raw
    mnemonic := d.mnemonic
    control := (signals d s).ctl
    aluResult := (signals d s).result
    memEffect := e
    regWritten := writebackOf d (signals d s) e s
    pc := nextPcOf (signals d s) s }

theorem recordTrace_of_memoryStage {d : Decoded} {s m : State} {e : MemEffect}
    (h : memoryStage (signals d s) s = .ok (e, m)) (raw : Word) : recordTrace d raw s = some (retiredRecord d raw e s) := by
  simp only [recordTrace, h, retiredRecord]

theorem datapathCycle_of_memoryStage {d : Decoded} {s m : State} {e : MemEffect}
    (h : memoryStage (signals d s) s = .ok (e, m)) (raw : Word) :
    datapathCycle d raw s = (applyWriteback (writebackOf d (signals d s) e s) m).retire (nextPcOf (signals d s) s) := by
  simp only [datapathCycle, h]

/-- A step whose run goes on is the cycle of a decoded instruction that passes its memory stage, and emits its record. -/
theorem step_retired {s t : State} (hr : s.run = .running) (h : step s = .next t) (ht : t.run = .running) :
    ∃ w i e m, s.fetch = .word w ∧ decode w = .ok i ∧ memoryStage (signals i.record s) s = .ok (e, m) ∧
      t = (applyWriteback (writebackOf i.record (signals i.record s) e s) m).retire (nextPcOf (signals i.record s) s) ∧
      traceOf s = some (retiredRecord i.record w e s) := by
  rcases step_cases h with ⟨he, -⟩ | ⟨-, k, -, rfl⟩ | ⟨-, -, rfl⟩ | ⟨-, w, -, -, -, rfl⟩ | ⟨-, w, i, hf, hd, hx⟩
  · exact absurd hr he
  · cases ht
  · cases ht
  · cases ht
  · rw [exec_eq_datapathCycle] at hx
    cases hx
    cases hm : memoryStage (signals i.record s) s with
    | error k => simp [datapathCycle, hm] at ht
    | ok p =>
      exact ⟨w, i, p.1, p.2, hf, hd, hm, datapathCycle_of_memoryStage hm _,
        (traceOf_of_decode_ok hr hf hd).trans (recordTrace_of_memoryStage hm w)⟩

/-- A cycle that ends the run, and a step of a halted core, emit no record (R84). -/
theorem traceOf_of_ends {s t : State} (h : step s = .next t) (ht : t.Ended) : traceOf s = none := by
  by_cases hr : s.run = .running
  · rcases step_retires_or_ends hr h with ⟨hrun, -, -⟩ | ⟨-, -, hnone⟩
    · exact absurd (hrun.trans hr) ht
    · exact hnone
  · exact traceOf_of_ended hr

/-- Settles O50: the record's fields are the cycle's signals, its memory effect and its writeback, and each of the last two
says what the next state holds. -/
theorem traceRecordOfCycle : Obligations.TraceRecordOfCycle := by
  refine ⟨fun s t hr h ht => ?_, fun s t h ht => traceOf_of_ends h ht⟩
  obtain ⟨w, i, e, m, hf, hd, hm, rfl, htrace⟩ := step_retired hr h ht
  obtain ⟨-, -, hw⟩ := of_fetch_eq_word hf
  refine ⟨retiredRecord i.record w e s, i.record, htrace, hw, by simp only [retiredRecord, decodeRecord, hd, Except.map],
    by simp [retiredRecord, memoryStage_count hm], rfl, rfl, rfl, fun rs1 h1 => ?_, ?_, ?_⟩
  · obtain ⟨b, hb⟩ := exists_operandB s h1
    exact ⟨b, hb, aluResult_of_operands h1 hb⟩
  · simp only [retire_mem, applyWriteback_mem, retiredRecord]
    rcases memoryStage_record_cases hm with ⟨rfl, hlw, hsw, hmem⟩ | ⟨rfl, hlw, hmem⟩ | ⟨v, rfl, hsw, hv, hmem⟩
    · exact ⟨hlw, hsw, hmem⟩
    · exact ⟨hlw, rfl, rfl, hmem⟩
    · exact ⟨hsw, rfl, hv, hmem⟩
  · simp only [retiredRecord]
    rcases writebackOf_record_cases i e s with ⟨hwb, hrd⟩ | ⟨rd, v, hwb, hrd, h0⟩ <;> rw [hwb]
    · exact ⟨fun r => memoryStage_getReg hm r, hrd⟩
    · exact ⟨hrd, h0, onlyRegWritten_of_writeback (memoryStage_getReg hm) h0 _⟩

end Sys2Proof.Machine

/-! PROOFS. The eight arithmetic and logic instructions (R85 to R92). They share one way to end a cycle, `writeAndAdvance`, so
its result and frame are proved once (`writeAndAdvance_retiresWriting`). The encoding clause of each is its row of the opcode
table (`decode_of_selects`); its control clause is read off its record by the control table and the resolver. -/

namespace Sys2Proof.Machine

/-! ## What the eight instructions share -/

/-- A register write leaves every other register, and leaves x0 at 0 (R19). -/
theorem onlyRegWritten_setReg (s : State) (rd : RegIdx) (v : Word) : OnlyRegWritten s (s.setReg rd v) rd v := by
  refine ⟨?_, fun r hr => ?_⟩
  · by_cases h0 : rd = 0#5
    · rw [if_pos h0, h0, getReg_x0]
    · rw [if_neg h0, getReg_setReg, if_pos ⟨rfl, h0⟩]
  · rw [getReg_setReg, if_neg fun h => hr h.1]

/-- The result and the whole frame of an instruction that writes one value and goes on at pc + 4. -/
theorem writeAndAdvance_retiresWriting (s : State) (rd : RegIdx) (v : Word) :
    RetiresWriting s (s.writeAndAdvance rd v) rd v (s.pc + 4#32) := by
  refine ⟨onlyRegWritten_setReg s rd v, fun a => ?_, ⟨?_, ?_, ?_, ?_⟩, rfl, ?_⟩ <;> simp [State.writeAndAdvance]

/-- An instruction whose meaning is one such write completes, with that result and frame. -/
theorem exec_retiresWriting {i : Instr} {s : State} {rd : RegIdx} {v : Word}
    (h : exec i s = .next (s.writeAndAdvance rd v)) :
    ∃ t, exec i s = .next t ∧ RetiresWriting s t rd v (s.pc + 4#32) :=
  ⟨_, h, writeAndAdvance_retiresWriting s rd v⟩

/-! ## The R-format instructions -/

/-- Settles O18: ADD resolves from funct3 000 with a funct7 that is not SUB's. -/
theorem addRule : Obligations.AddRule :=
  ⟨fun _ h => decode_of_selects (m := .add) h, fun _ _ _ => ⟨rfl, rfl, rfl, rfl, rfl, rfl⟩,
    fun _ _ _ _ => exec_retiresWriting rfl⟩

/-- Settles O19: SUB resolves from funct3 000 with funct7 0100000. -/
theorem subRule : Obligations.SubRule :=
  ⟨fun _ h => decode_of_selects (m := .sub) h, fun _ _ _ => ⟨rfl, rfl, rfl, rfl⟩,
    fun _ _ _ _ => exec_retiresWriting rfl⟩

/-- The R table has one key with and's funct3 (R59), so with another funct7 the word is in case (b) of R61. -/
theorem rejected_of_and_funct3 {w : Word} (h : w &&& 0x0000707F#32 = 0x00007033#32) (h7 : funct7Of w ≠ 0b0000000#7) :
    Rejected w := by
  obtain ⟨hop, h3⟩ := (and_mask_funct3 w 0b111#3 (Opcode.code .rType)).mp h
  have hkeys : ∀ key ∈ rKeys, key.1 = 0b111#3 → key.2 = 0b0000000#7 := by simp [rKeys]
  exact rejected_of_caseHolds (why := .unknownRKey) ⟨hop, fun hk => h7 (hkeys _ hk h3)⟩

/-- Settles O20: AND resolves from funct3 111; another funct7 is rejected by `rejected_of_and_funct3`. -/
theorem andRule : Obligations.AndRule :=
  ⟨fun _ h => decode_of_selects (m := .and) h, fun _ => rejected_of_and_funct3, fun _ _ _ => ⟨rfl, rfl, rfl⟩,
    fun _ _ _ _ => exec_retiresWriting rfl⟩

/-- Settles O21: OR resolves from funct3 110. -/
theorem orRule : Obligations.OrRule :=
  ⟨fun _ h => decode_of_selects (m := .or) h, fun _ _ _ => ⟨rfl, rfl, rfl⟩, fun _ _ _ _ => exec_retiresWriting rfl⟩

/-- Settles O22: SLT resolves from funct3 010; the ALU compares the signed views (R74), so no difference is taken. -/
theorem sltRule : Obligations.SltRule :=
  ⟨fun _ h => decode_of_selects (m := .slt) h, fun _ _ _ => ⟨rfl, rfl, rfl⟩, fun _ _ _ _ => exec_retiresWriting rfl⟩

/-! ## The I-format instructions -/

/-- Settles O23: the record has no funct7, so funct3 000 resolves to ADD whatever the immediate's upper bits are (R72). -/
theorem addiRule : Obligations.AddiRule :=
  ⟨fun _ h => decode_of_selects (m := .addi) h, fun _ _ _ => ⟨rfl, rfl, rfl, rfl, rfl, rfl⟩,
    fun _ _ _ _ => exec_retiresWriting rfl⟩

/-- Settles O24: the immediate that decoding sign-extended is the second operand of AND. -/
theorem andiRule : Obligations.AndiRule :=
  ⟨fun _ h => decode_of_selects (m := .andi) h, fun _ _ _ => ⟨rfl, rfl, rfl⟩, fun _ _ _ _ => exec_retiresWriting rfl⟩

/-- Settles O25: the immediate that decoding sign-extended is the second operand of OR. -/
theorem oriRule : Obligations.OriRule :=
  ⟨fun _ h => decode_of_selects (m := .ori) h, fun _ _ _ => ⟨rfl, rfl, rfl⟩, fun _ _ _ _ => exec_retiresWriting rfl⟩

end Sys2Proof.Machine

/-! PROOFS. lw and sw (R93, R94). Where the access passes its checks, the meaning is the one write of `writeAndAdvance` or the
one store of `exec_sw_of_accessible`. A failed check has one meaning for both instructions (`exec_of_accessError`), so the two
errors are settled once, for every instruction that accesses data memory. -/

namespace Sys2Proof.Machine

/-! ## An access that fails a check -/

/-- The error of a failed check names the fetched word, which encodes the instruction it decoded to (R64, R99). -/
theorem exec_fails_of_accessError {w : Word} {i : Instr} {s : State} {ea : Word} {k : ErrorKind} (hd : decode w = .ok i)
    (hi : AccessesData i s ea) (hk : s.accessError ea = some k) :
    ∃ t, exec i s = .next t ∧ FailsWith s t k (some w) .memory := by
  have hx := exec_of_accessError hi hk
  rw [encode_of_decode hd] at hx
  exact ⟨_, hx, rfl⟩

/-- The alignment check comes first, so a misaligned access fails it wherever it is (R35). -/
theorem exec_fails_of_misaligned {w : Word} {i : Instr} {s : State} {ea : Word} (hd : decode w = .ok i)
    (hi : AccessesData i s ea) (hmis : ea.toNat % 4 ≠ 0) :
    ∃ t, exec i s = .next t ∧ FailsWith s t .unalignedAccessError (some w) .memory :=
  exec_fails_of_accessError hd hi (by rw [accessError_eq, if_pos hmis])

/-- An aligned access at or past the end of data memory fails the range check (R36). -/
theorem exec_fails_of_out_of_range {w : Word} {i : Instr} {s : State} {ea : Word} (hd : decode w = .ok i)
    (hi : AccessesData i s ea) (halign : ea.toNat % 4 = 0) (hout : 4 * s.memWords ≤ ea.toNat) :
    ∃ t, exec i s = .next t ∧ FailsWith s t .outOfRangeAccessError (some w) .memory :=
  exec_fails_of_accessError hd hi (by rw [accessError_eq, if_neg (not_not.mpr halign), if_pos hout])

theorem accessesData_lw (rd rs1 : RegIdx) (imm : Word) (s : State) :
    AccessesData (.lw rd rs1 imm) s (s.getReg rs1 + imm) :=
  .inl ⟨rd, rs1, imm, rfl, rfl⟩

theorem accessesData_sw (rs2 rs1 : RegIdx) (imm : Word) (s : State) :
    AccessesData (.sw rs2 rs1 imm) s (s.getReg rs1 + imm) :=
  .inr ⟨rs2, rs1, imm, rfl, rfl⟩

/-! ## The two instructions -/

/-- Settles O26: an accessible word is written to rd as any other result is; x0 discards it after the checks, not before. -/
theorem lwRule : Obligations.LwRule :=
  ⟨fun _ h => decode_of_selects (m := .lw) h, fun _ _ _ => ⟨rfl, rfl, rfl, rfl, rfl, rfl⟩,
    fun rd _ _ _ ha => exec_retiresWriting (exec_lw_of_accessible ha rd),
    fun _ rd rs1 imm s hd => exec_fails_of_misaligned hd (accessesData_lw rd rs1 imm s),
    fun _ rd rs1 imm s hd => exec_fails_of_out_of_range hd (accessesData_lw rd rs1 imm s)⟩

/-- A sw to an accessible word stores its rs2 there (R94). -/
theorem exec_sw_of_accessible {s : State} {rs1 : RegIdx} {imm : Word} (h : s.Accessible (s.getReg rs1 + imm)) (rs2 : RegIdx) :
    exec (.sw rs2 rs1 imm) s =
      .next (({ s with mem := s.mem.writeWord (s.getReg rs1 + imm).toNat (s.getReg rs2) } : State).retire (s.pc + 4#32)) := by
  simp only [exec, execSw, effAddr_eq, memWrite_of_accessible h, pcPlus4_eq]

/-- Settles O27: the word stored reads back, the bytes outside it read as before, and no field but mem, pc and count is
touched. -/
theorem swRule : Obligations.SwRule := by
  refine ⟨fun _ h => decode_of_selects (m := .sw) h, fun _ _ _ => ⟨rfl, rfl, rfl, rfl, rfl⟩,
    fun rs2 rs1 imm s ha =>
      ⟨_, exec_sw_of_accessible ha rs2, ?_, fun a hout => ?_, fun _ => rfl, ⟨rfl, rfl, rfl, rfl⟩, rfl, rfl⟩,
    fun _ rs2 rs1 imm s hd => exec_fails_of_misaligned hd (accessesData_sw rs2 rs1 imm s),
    fun _ rs2 rs1 imm s hd => exec_fails_of_out_of_range hd (accessesData_sw rs2 rs1 imm s)⟩
  · exact readWord_writeWord _ _ _
  · exact readByte_writeWord_of_not_in _ _ _ _ hout

end Sys2Proof.Machine

/-! PROOFS. beq, jal and jalr (R95 to R97). The two jumps are one register write that goes on at a target, whose result and frame
are proved once (`setReg_retire_retiresWriting`). The branch turns on the Zero flag of SUB, which is equality of the operands. -/

namespace Sys2Proof.Machine

/-! ## The branch -/

/-- beq selects its next pc by equality of the two words, since a difference is 0 for equal words only (R95). -/
theorem exec_beq (rs1 rs2 : RegIdx) (off : Word) (s : State) :
    exec (.beq rs1 rs2 off) s =
      .next (s.retire (if s.getReg rs1 = s.getReg rs2 then s.pc + off else s.pc + 4#32)) := by
  by_cases h : s.getReg rs1 = s.getReg rs2
  · rw [exec_beq_of_eq off h, if_pos h]
  · rw [if_neg h, exec, execBeq, if_neg (mt (zeroFlag_sub_iff _ _).mp h), pcPlus4_eq]

/-- Settles O28: BRANCH resolves to SUB, whose Zero flag is word equality (`exec_beq`); `retire` is the whole effect. -/
theorem beqRule : Obligations.BeqRule :=
  ⟨fun _ h => decode_of_selects (m := .beq) h, fun _ _ _ => ⟨rfl, rfl, rfl, rfl, rfl⟩,
    fun rs1 rs2 off s => ⟨_, exec_beq rs1 rs2 off s, rfl, fun _ => rfl, fun _ => rfl, ⟨rfl, rfl, rfl, rfl⟩, rfl⟩⟩

/-! ## The two jumps -/

/-- The result and the whole frame of an instruction that writes one value and goes on at `next`. -/
theorem setReg_retire_retiresWriting (s : State) (rd : RegIdx) (v next : Word) :
    RetiresWriting s ((s.setReg rd v).retire next) rd v next := by
  refine ⟨onlyRegWritten_setReg s rd v, fun a => ?_, ⟨?_, ?_, ?_, ?_⟩, rfl, ?_⟩ <;> simp

/-- Settles O29: the link is the value written, so the free ALU result is not read. -/
theorem jalRule : Obligations.JalRule :=
  ⟨fun _ h => decode_of_selects (m := .jal) h, fun _ _ => ⟨rfl, rfl, rfl, rfl, rfl, rfl⟩,
    fun _ _ _ => ⟨_, rfl, setReg_retire_retiresWriting _ _ _ _⟩⟩

/-- Settles O30: the target is formed from the state before the link is written, so rd = rs1 is no special case; the mask
clears bit 0 and no other bit (`toNat_clearBit0`). -/
theorem jalrRule : Obligations.JalrRule :=
  ⟨fun _ h => decode_of_selects (m := .jalr) h, fun _ _ _ => ⟨rfl, rfl, rfl, rfl, rfl, rfl, rfl⟩,
    fun _ _ _ _ => ⟨_, rfl, setReg_retire_retiresWriting _ _ _ _, toNat_clearBit0 _⟩⟩

end Sys2Proof.Machine

/-! PROOFS. The fatal error of a cycle (R99 to R101). A running step that ends in HALTED_ERROR failed in one of three stages, and
each names the check that raised the error (`step_fails_cases`); the three statements read the record off those cases. -/

namespace Sys2Proof.Machine

/-! ## The check that raised the error -/

/-- The data access of `i` in `s` fails with `k`: `i` is a lw or sw whose effective address fails the alignment check or, being
aligned, the range check, and `k` is that check's error (R35, R36, R101). -/
def FailsAccess (i : Instr) (s : State) (k : ErrorKind) : Prop :=
  ∃ rs1 imm, i.record.rs1 = some rs1 ∧ i.record.imm = some imm ∧ (i.mnemonic = .lw ∨ i.mnemonic = .sw) ∧
    ((s.getReg rs1 + imm).toNat % 4 ≠ 0 → k = .unalignedAccessError) ∧
    ((s.getReg rs1 + imm).toNat % 4 = 0 → 4 * s.memWords ≤ (s.getReg rs1 + imm).toNat ∧ k = .outOfRangeAccessError)

/-- A DecodeError is not one of the two errors of a data access (R98). -/
theorem ne_decodeError_of_failsAccess {i : Instr} {s : State} {k : ErrorKind} (h : FailsAccess i s k) : k ≠ .decodeError := by
  obtain ⟨rs1, imm, -, -, -, hmis, hout⟩ := h
  by_cases halign : (s.getReg rs1 + imm).toNat % 4 = 0
  · rw [(hout halign).2]
    decide
  · rw [hmis halign]
    decide

/-- An instruction ends a run in HALTED_ERROR only by a data access that fails. -/
theorem exec_fails_cases {i : Instr} {s t : State} (hr : s.run = .running) (h : exec i s = .next t)
    (ht : t.run = .haltedError) : ∃ k, FailsAccess i s k ∧ t = s.raiseError k (some (encode i)) .memory := by
  rcases exec_cases h with ⟨rd, v, n, -, -, -, rfl⟩ | ⟨-, -, -, n, -, -, rfl⟩ | ⟨rs2, rs1, imm, -, -, rfl⟩ |
    ⟨rs1, imm, k, h1, himm, hmn, rfl, hmis, hout⟩
  · simp [hr] at ht
  · simp [hr] at ht
  · simp [hr] at ht
  · exact ⟨k, ⟨rs1, imm, h1, himm, hmn, hmis, hout⟩, rfl⟩

/-- Everything fetch can fail by, in the order of its checks (R81). -/
theorem fetch_error_cases {s : State} {k : ErrorKind} (h : s.fetch = .error k) :
    (s.pc.toNat % 4 ≠ 0 ∧ k = .unalignedAccessError) ∨
    (s.pc.toNat % 4 = 0 ∧ 2 ^ 31 ≤ s.pc.toNat ∧ k = .outOfRangeAccessError) := by
  rcases fetch_cases s with ⟨hmis, hf⟩ | ⟨halign, hhigh, hf⟩ | ⟨-, -, hf⟩ | ⟨-, -, w, -, hf⟩ <;> rw [h] at hf <;> cases hf
  · exact .inl ⟨hmis, rfl⟩
  · exact .inr ⟨halign, hhigh, rfl⟩

/-- Everything a running step that ends in HALTED_ERROR can have failed by, in stage order (R101). -/
theorem step_fails_cases {s t : State} (hr : s.run = .running) (h : step s = .next t) (ht : t.run = .haltedError) :
    (∃ k, s.fetch = .error k ∧ t = s.raiseError k none .fetch) ∨
    (∃ w, s.fetch = .word w ∧ Rejected w ∧ t = s.raiseError .decodeError (some w) .decode) ∨
    (∃ w i k, s.fetch = .word w ∧ decode w = .ok i ∧ FailsAccess i s k ∧ t = s.raiseError k (some w) .memory) := by
  rcases step_cases h with ⟨he, -⟩ | ⟨-, k, hf, rfl⟩ | ⟨-, -, rfl⟩ | ⟨-, w, why, hf, hd, rfl⟩ | ⟨-, w, i, hf, hd, hx⟩
  · exact absurd hr he
  · exact .inl ⟨k, hf, rfl⟩
  · cases ht
  · exact .inr (.inl ⟨w, hf, ⟨why, hd⟩, rfl⟩)
  · obtain ⟨k, hk, rfl⟩ := exec_fails_cases hr hx ht
    rw [encode_of_decode hd]
    exact .inr (.inr ⟨w, i, k, hf, hd, hk, rfl⟩)

/-! ## The three statements -/

/-- Settles O41: in each stage the next state is `raiseError`'s, and a cycle that ends the run emits no record. -/
theorem fatalErrorIsPrecise : Obligations.FatalErrorIsPrecise := by
  intro s t hr h ht
  refine ⟨?_, traceOf_of_ends h (by simp [State.Ended, ht])⟩
  rcases step_fails_cases hr h ht with ⟨k, -, rfl⟩ | ⟨w, -, -, rfl⟩ | ⟨w, i, k, -, -, -, rfl⟩ <;> exact ⟨_, rfl⟩

/-- Settles O42: each stage writes its own record, and the errors of the fetch and access checks are not DecodeErrors. -/
theorem errorRecordContext : Obligations.ErrorRecordContext := by
  intro s t hr h ht
  rcases step_fails_cases hr h ht with ⟨k, hf, rfl⟩ | ⟨w, hf, -, rfl⟩ | ⟨w, i, k, hf, -, hk, rfl⟩
  · refine ⟨_, rfl, rfl, fun _ => rfl, by simp, ?_⟩
    rcases fetch_error_cases hf with ⟨-, rfl⟩ | ⟨-, -, rfl⟩ <;> simp
  · obtain ⟨-, -, hw⟩ := of_fetch_eq_word hf
    exact ⟨_, rfl, rfl, by simp, fun _ => ⟨w, rfl, hw⟩, by simp⟩
  · obtain ⟨-, -, hw⟩ := of_fetch_eq_word hf
    exact ⟨_, rfl, rfl, by simp, fun _ => ⟨w, rfl, hw⟩, by simp [ne_decodeError_of_failsAccess hk]⟩

/-- Settles O43: the failing stage tells which premise holds, since a later stage is reached only past the checks before it; and
a fetched word that decodes is not rejected. -/
theorem firstErrorInStageOrder : Obligations.FirstErrorInStageOrder := by
  intro s t hr h ht
  rcases step_fails_cases hr h ht with ⟨k, hf, rfl⟩ | ⟨w, hf, ⟨why, hrej⟩, rfl⟩ | ⟨w, i, k, hf, hd, hk, rfl⟩
  · refine ⟨_, rfl, ?_⟩
    rcases fetch_error_cases hf with ⟨hmis, rfl⟩ | ⟨halign, hhigh, rfl⟩
    · exact ⟨fun _ => ⟨rfl, rfl⟩, fun halign => absurd halign hmis, fun hpc => absurd hpc.1 hmis⟩
    · exact ⟨fun hmis => absurd halign hmis, fun _ _ => ⟨rfl, rfl⟩, fun hpc => absurd hpc.2 hhigh.not_gt⟩
  · obtain ⟨⟨halign, hlow⟩, hin, hw⟩ := of_fetch_eq_word hf
    refine ⟨_, rfl, fun hmis => absurd halign hmis, fun _ hhigh => absurd hlow hhigh.not_gt,
      fun _ => ⟨hin, w, hw, fun _ => ⟨rfl, rfl⟩, fun i hd => ?_⟩⟩
    rw [hrej] at hd
    cases hd
  · obtain ⟨⟨halign, hlow⟩, hin, hw⟩ := of_fetch_eq_word hf
    refine ⟨_, rfl, fun hmis => absurd halign hmis, fun _ hhigh => absurd hlow hhigh.not_gt,
      fun _ => ⟨hin, w, hw, fun ⟨why, hrej⟩ => ?_, fun j hj => ?_⟩⟩
    · rw [hd] at hrej
      cases hrej
    · rw [hd] at hj
      cases hj
      exact ⟨rfl, hk⟩

end Sys2Proof.Machine

/-! PROOFS. Reset (R31, R114) and the start of a run (R115 to R118). The initial-state maps are applied entry by entry, so what a
location holds after a map is read off two general facts about a fold of writes: writes elsewhere leave it
(`foldl_keeps`), and with no key twice its own entry is the only write to it (`foldl_of_mem`). `boot_eq_next_iff` says once when
the load answers a state, and which. -/

namespace Sys2Proof.Machine

/-! ## Reset -/

@[simp] theorem getReg_resetWith (m : Nat) (r : RegIdx) : (State.resetWith m).getReg r = 0#32 := by
  unfold State.getReg State.resetWith
  split
  · rfl
  · exact Vector.getElem_replicate r.isLt

@[simp] theorem readWord_nil (a : Nat) : Memory.readWord [] a = 0#32 := by
  simp only [Memory.readWord, Memory.readByte, Config.unlistedByte]
  decide

/-- Settles O54: the reset values field by field, and a step from a halted state answers that state. -/
theorem resetValues : Obligations.ResetValues := by
  refine ⟨fun s => ⟨getReg_resetWith s.memWords, rfl, readWord_nil, rfl, rfl, rfl⟩, fun u t hu h => ?_⟩
  rw [step_of_ended hu] at h
  cases h
  rfl

/-! ## A fold of writes, entry after entry -/

section
variable {σ ω : Type} {write : σ → Nat × Int → σ} {read : σ → ω}

/-- What no entry's write changes, the fold does not change. -/
theorem foldl_keeps {m : List (Nat × Int)} (h : ∀ e ∈ m, ∀ s, read (write s e) = read s) (s : σ) :
    read (m.foldl write s) = read s :=
  List.foldlRecOn (motive := fun t => read t = read s) m write rfl fun t ht e he => (h e he t).trans ht

/-- With no key twice, what only the entry of key `k` writes holds that entry's value after the fold. -/
theorem foldl_of_mem {m : List (Nat × Int)} {k : Nat} {v : Int} {w : ω} (hmem : (k, v) ∈ m) (hnd : (m.map Prod.fst).Nodup)
    (hself : ∀ s, read (write s (k, v)) = w) (hother : ∀ e ∈ m, e.1 ≠ k → ∀ s, read (write s e) = read s) (s : σ) :
    read (m.foldl write s) = w := by
  obtain ⟨before, after, rfl⟩ := List.append_of_mem hmem
  rw [List.map_append, List.map_cons] at hnd
  have hk : k ∉ after.map Prod.fst := (List.nodup_cons.mp hnd.of_append_right).1
  rw [List.foldl_append, List.foldl_cons,
    foldl_keeps fun e he => hother e (by simp [he]) fun hc => hk (hc ▸ List.mem_map_of_mem he)]
  exact hself _

end

/-! ## The register map (R116) -/

/-- A piece of state that no register write changes is not changed by a register map. -/
theorem applyRegisterMap_keeps {ω : Type} {read : State → ω} (h : ∀ s r v, read (s.setReg r v) = read s) (s : State)
    (m : List (Nat × Int)) : read (s.applyRegisterMap m) = read s :=
  foldl_keeps (fun _ _ t => h t _ _) s

@[simp] theorem applyRegisterMap_pc (s : State) (m : List (Nat × Int)) : (s.applyRegisterMap m).pc = s.pc :=
  applyRegisterMap_keeps setReg_pc s m
@[simp] theorem applyRegisterMap_mem (s : State) (m : List (Nat × Int)) : (s.applyRegisterMap m).mem = s.mem :=
  applyRegisterMap_keeps setReg_mem s m
@[simp] theorem applyRegisterMap_memWords (s : State) (m : List (Nat × Int)) : (s.applyRegisterMap m).memWords = s.memWords :=
  applyRegisterMap_keeps setReg_memWords s m
@[simp] theorem applyRegisterMap_imem (s : State) (m : List (Nat × Int)) : (s.applyRegisterMap m).imem = s.imem :=
  applyRegisterMap_keeps setReg_imem s m
@[simp] theorem applyRegisterMap_run (s : State) (m : List (Nat × Int)) : (s.applyRegisterMap m).run = s.run :=
  applyRegisterMap_keeps setReg_run s m
@[simp] theorem applyRegisterMap_count (s : State) (m : List (Nat × Int)) : (s.applyRegisterMap m).count = s.count :=
  applyRegisterMap_keeps setReg_count s m
@[simp] theorem applyRegisterMap_err (s : State) (m : List (Nat × Int)) : (s.applyRegisterMap m).err = s.err :=
  applyRegisterMap_keeps setReg_err s m

/-- Two register numbers of the architecture name one register only when they are equal. -/
theorem regIdx_ofNat_inj {i j : Nat} (hi : i ≤ 31) (hj : j ≤ 31) : BitVec.ofNat 5 i = BitVec.ofNat 5 j ↔ i = j := by
  rw [← BitVec.toNat_inj, BitVec.toNat_ofNat, BitVec.toNat_ofNat, Nat.mod_eq_of_lt (by omega), Nat.mod_eq_of_lt (by omega)]

theorem getReg_setReg_of_key_ne {i j : Nat} (hi : i ≤ 31) (hj : j ≤ 31) (hne : j ≠ i) (s : State) (v : Word) :
    (s.setReg (BitVec.ofNat 5 j) v).getReg (BitVec.ofNat 5 i) = s.getReg (BitVec.ofNat 5 i) := by
  rw [getReg_setReg, if_neg fun h => hne ((regIdx_ofNat_inj hi hj).mp h.1).symm]

theorem getReg_applyRegisterMap_of_not_mem {m : List (Nat × Int)} {i : Nat} (hkeys : ∀ e ∈ m, e.1 ≤ 31) (hi : i ≤ 31)
    (hnot : i ∉ m.map Prod.fst) (s : State) :
    (s.applyRegisterMap m).getReg (BitVec.ofNat 5 i) = s.getReg (BitVec.ofNat 5 i) :=
  foldl_keeps (read := (State.getReg · (BitVec.ofNat 5 i)))
    (fun e he t => getReg_setReg_of_key_ne hi (hkeys e he) (fun hc => hnot (hc ▸ List.mem_map_of_mem he)) t _) s

theorem getReg_applyRegisterMap_of_mem {m : List (Nat × Int)} {i : Nat} {v : Int} (hkeys : ∀ e ∈ m, e.1 ≤ 31)
    (hnd : (m.map Prod.fst).Nodup) (hmem : (i, v) ∈ m) (hi : i ≠ 0) (s : State) :
    (s.applyRegisterMap m).getReg (BitVec.ofNat 5 i) = BitVec.ofInt 32 v := by
  have hi31 : i ≤ 31 := hkeys _ hmem
  have hx0 : BitVec.ofNat 5 i ≠ 0#5 := fun hc => hi ((regIdx_ofNat_inj hi31 (by decide)).mp hc)
  exact foldl_of_mem (read := (State.getReg · (BitVec.ofNat 5 i))) hmem hnd
    (fun t => by rw [getReg_setReg, if_pos ⟨rfl, hx0⟩])
    (fun e he hne t => getReg_setReg_of_key_ne hi31 (hkeys e he) hne t _) s

/-! ## The memory map (R116) -/

/-- Two words at different multiples of 4 share no byte. -/
theorem readWord_writeWord_of_ne {a b : Nat} (ha : a % 4 = 0) (hb : b % 4 = 0) (hne : a ≠ b) (m : Memory) (v : Word) :
    (m.writeWord a v).readWord b = m.readWord b :=
  readWord_writeWord_of_apart m a b v (by omega)

theorem readWord_applyMemoryMap_of_not_mem {m : List (Nat × Int)} {a : Nat} (hkeys : ∀ e ∈ m, e.1 % 4 = 0) (ha : a % 4 = 0)
    (hnot : a ∉ m.map Prod.fst) (s : State) : (s.applyMemoryMap m).mem.readWord a = s.mem.readWord a :=
  foldl_keeps (read := (Memory.readWord · a))
    (fun e he t => readWord_writeWord_of_ne (hkeys e he) ha (fun hc => hnot (hc ▸ List.mem_map_of_mem he)) t _) s.mem

theorem readWord_applyMemoryMap_of_mem {m : List (Nat × Int)} {a : Nat} {v : Int} (hkeys : ∀ e ∈ m, e.1 % 4 = 0)
    (hnd : (m.map Prod.fst).Nodup) (hmem : (a, v) ∈ m) (s : State) :
    (s.applyMemoryMap m).mem.readWord a = BitVec.ofInt 32 v := by
  have ha : a % 4 = 0 := hkeys _ hmem
  exact foldl_of_mem (read := (Memory.readWord · a)) hmem hnd (fun t => by rw [readWord_writeWord])
    (fun e he hne t => readWord_writeWord_of_ne (hkeys e he) ha hne t _) s.mem

/-! ## The values and entries of a map -/

theorem denotesWord_iff {v : Int} : denotesWord v = true ↔ -(2 ^ 31) ≤ v ∧ v < 2 ^ 32 := by simp [denotesWord]

theorem registerEntryOk_iff {e : Nat × Int} : registerEntryOk e = true ↔ e.1 ≤ 31 ∧ -(2 ^ 31) ≤ e.2 ∧ e.2 < 2 ^ 32 := by
  rw [registerEntryOk, Bool.and_eq_true, denotesWord_iff, decide_eq_true_iff]

theorem memoryEntryOk_iff {m : Nat} {e : Nat × Int} :
    memoryEntryOk m e = true ↔ e.1 % 4 = 0 ∧ e.1 < 4 * m ∧ -(2 ^ 31) ≤ e.2 ∧ e.2 < 2 ^ 32 := by
  rw [memoryEntryOk, Bool.and_eq_true, Bool.and_eq_true, denotesWord_iff, decide_eq_true_iff, decide_eq_true_iff, and_assoc]

/-- The word a map's value denotes: itself, or n + 2^32 for a negative n (R116). -/
theorem toNat_ofInt_of_denotesWord {v : Int} (hlo : -(2 ^ 31) ≤ v) (hhi : v < 2 ^ 32) :
    ((BitVec.ofInt 32 v).toNat : Int) = if v < 0 then v + 2 ^ 32 else v := by
  rw [BitVec.toNat_ofInt]
  split <;> omega

/-- A program of 32-bit entries is its words. -/
theorem map_toNat_map_ofNat {prog : List Nat} (h : ∀ w ∈ prog, w < 2 ^ 32) :
    (prog.map (BitVec.ofNat 32)).map BitVec.toNat = prog := by
  rw [List.map_map]
  calc prog.map (BitVec.toNat ∘ BitVec.ofNat 32) = prog.map id :=
        List.map_congr_left fun w hw => Nat.mod_eq_of_lt (h w hw)
    _ = prog := List.map_id prog

/-! ## The load -/

/-- The state of R115's steps (1) to (3). -/
def bootedState (memWords : Nat) (prog : List Nat) (registerMap memoryMap : List (Nat × Int)) : State :=
  (((State.resetWith memWords).loadProgram (prog.map (BitVec.ofNat 32))).applyRegisterMap registerMap).applyMemoryMap memoryMap

/-- A load passes a check exactly when the check's defect is absent. -/
theorem guard_eq_next_iff {p : Prop} [Decidable p] {bad rest : Host.Outcome State Fault Refusal} {s : State}
    (hbad : bad ≠ .next s) : (if p then bad else rest) = .next s ↔ ¬p ∧ rest = .next s := by
  by_cases hp : p
  · simp [hp, hbad]
  · simp [hp]

/-- When the load answers a state, and which (R10, R11, R112, R115, R116). -/
theorem boot_eq_next_iff {m : Nat} {prog : List Nat} {regMap memMap : List (Nat × Int)} {s : State} :
    boot m prog regMap memMap = .next s ↔
      (m ≤ Config.maxMemWords ∧ (∀ w ∈ prog, w < 2 ^ 32) ∧ prog.length ≤ Config.maxProgLen ∧
        (∀ e ∈ regMap, e.1 ≤ 31 ∧ -(2 ^ 31) ≤ e.2 ∧ e.2 < 2 ^ 32) ∧
        (∀ e ∈ memMap, e.1 % 4 = 0 ∧ e.1 < 4 * m ∧ -(2 ^ 31) ≤ e.2 ∧ e.2 < 2 ^ 32)) ∧
      s = bootedState m prog regMap memMap := by
  have hprog : (prog.any fun w => decide (2 ^ 32 ≤ w)) = true ↔ ¬∀ w ∈ prog, w < 2 ^ 32 := by simp
  have hreg : (!regMap.all registerEntryOk) = true ↔ ¬∀ e ∈ regMap, e.1 ≤ 31 ∧ -(2 ^ 31) ≤ e.2 ∧ e.2 < 2 ^ 32 := by
    simp only [Bool.not_eq_true', ← Bool.not_eq_true, List.all_eq_true, registerEntryOk_iff]
  have hmem : (!memMap.all (memoryEntryOk m)) = true ↔
      ¬∀ e ∈ memMap, e.1 % 4 = 0 ∧ e.1 < 4 * m ∧ -(2 ^ 31) ≤ e.2 ∧ e.2 < 2 ^ 32 := by
    simp only [Bool.not_eq_true', ← Bool.not_eq_true, List.all_eq_true, memoryEntryOk_iff]
  simp only [boot, guard_eq_next_iff, ne_eq, reduceCtorEq, not_false_eq_true, hprog, hreg, hmem, not_not, not_lt, and_assoc,
    Host.Outcome.next.injEq, bootedState, eq_comm (b := s)]

/-- Settles O55: each map's two location lemmas over the reset state; and the load answers no state for a key out of range. -/
theorem bootAppliesInitialMaps : Obligations.BootAppliesInitialMaps := by
  constructor
  · intro m prog regMap memMap hm hlen hprog hreg hmem hregNd hmemNd
    have hregKeys : ∀ e ∈ regMap, e.1 ≤ 31 := fun e he => (hreg e he).1
    have hmemKeys : ∀ e ∈ memMap, e.1 % 4 = 0 := fun e he => (hmem e he).1
    refine ⟨bootedState m prog regMap memMap, boot_eq_next_iff.mpr ⟨⟨hm, hprog, hlen, hreg, hmem⟩, rfl⟩,
      applyRegisterMap_pc _ _, applyRegisterMap_run _ _, applyRegisterMap_count _ _, applyRegisterMap_err _ _,
      applyRegisterMap_memWords _ _, ?_, rfl, fun i v hin hi => ?_, fun i hi hnot => ?_, fun a v hin => ?_,
      fun a ha hnot => ?_⟩
    · exact (congrArg _ (applyRegisterMap_imem _ _)).trans (map_toNat_map_ofNat hprog)
    · obtain ⟨-, hlo, hhi⟩ := hreg _ hin
      have hread : (bootedState m prog regMap memMap).getReg (BitVec.ofNat 5 i) = BitVec.ofInt 32 v :=
        getReg_applyRegisterMap_of_mem hregKeys hregNd hin hi _
      rw [hread, toNat_ofInt_of_denotesWord hlo hhi]
    · exact (getReg_applyRegisterMap_of_not_mem hregKeys hi hnot _).trans (getReg_resetWith m _)
    · obtain ⟨-, -, hlo, hhi⟩ := hmem _ hin
      have hread : (bootedState m prog regMap memMap).mem.readWord a = BitVec.ofInt 32 v :=
        readWord_applyMemoryMap_of_mem hmemKeys hmemNd hin _
      rw [hread, toNat_ofInt_of_denotesWord hlo hhi]
    · rw [bootedState, readWord_applyMemoryMap_of_not_mem hmemKeys ha hnot, applyRegisterMap_mem]
      exact readWord_nil a
  · intro m prog regMap memMap s h
    obtain ⟨⟨-, -, -, hreg, hmem⟩, -⟩ := boot_eq_next_iff.mp h
    exact ⟨fun e he => (hreg e he).1, fun e he => ⟨(hmem e he).1, (hmem e he).2.1⟩⟩

end Sys2Proof.Machine

/-! PROOFS. The decoder against the encoder (R64), and what follows from the decoded record: the words that look like hints
(R63), the keys that reach the ALU control resolver (R73), and the rows of the control table (R70). The row an encoded word
selects and the fields it gives back are each said once (`encode_selects`, `instrOfWord_encode`). -/

namespace Sys2Proof

/-! ## An encoded word -/

/-- The word of every instruction selects the instruction's own row (R65), whatever its operands are. -/
theorem encode_selects (i : Instr) : i.mnemonic.Selects (encode i) := by
  cases i with
  | add rd rs1 rs2 => exact Laws.EncodeSelects.add rd rs1 rs2
  | sub rd rs1 rs2 => exact Laws.EncodeSelects.sub rd rs1 rs2
  | and rd rs1 rs2 => exact Laws.EncodeSelects.and rd rs1 rs2
  | or rd rs1 rs2 => exact Laws.EncodeSelects.or rd rs1 rs2
  | slt rd rs1 rs2 => exact Laws.EncodeSelects.slt rd rs1 rs2
  | lw rd rs1 imm => exact Laws.EncodeSelects.lw rd rs1 imm
  | addi rd rs1 imm => exact Laws.EncodeSelects.addi rd rs1 imm
  | andi rd rs1 imm => exact Laws.EncodeSelects.andi rd rs1 imm
  | ori rd rs1 imm => exact Laws.EncodeSelects.ori rd rs1 imm
  | jalr rd rs1 imm => exact Laws.EncodeSelects.jalr rd rs1 imm
  | sw rs2 rs1 imm => exact Laws.EncodeSelects.sw rs2 rs1 imm
  | beq rs1 rs2 off => exact Laws.EncodeSelects.beq rs1 rs2 off
  | jal rd off => exact Laws.EncodeSelects.jal rd off

/-- The fields of an encoded word are the instruction's operands. Only here does the range of the immediate count: the field
holds its low bits, and sign-extending those gives it back. -/
theorem instrOfWord_encode {i : Instr} (h : i.WellFormed) : instrOfWord i.mnemonic (encode i) = i := by
  cases i with
  | add | sub | and | or | slt => simp [instrOfWord, encode, fields_encodeR]
  | lw | addi | andi | ori | jalr => simp [instrOfWord, encode, fields_encodeI, immIOf_encodeI, imm12_roundtrip h]
  | sw => simp [instrOfWord, encode, fields_encodeS, immSOf_encodeS, imm12_roundtrip h]
  | beq => simp [instrOfWord, encode, fields_encodeSB, immSBOf_encodeSB, offset13_roundtrip h]
  | jal => simp [instrOfWord, encode, fields_encodeUJ, immUJOf_encodeUJ, offset21_roundtrip h]

/-- A field above bit 0 does not show bit 0. -/
theorem extractLsb'_or_one {k : Nat} (hk : 0 < k) (n : Nat) (off : Word) :
    (off ||| 1#32).extractLsb' k n = off.extractLsb' k n := by
  apply BitVec.eq_of_getLsbD_eq
  intro i hi
  have hbit : (1#32).getLsbD (k + i) = false := by
    rw [BitVec.getLsbD_one, decide_eq_false (show k + i ≠ 0 by omega), Bool.and_false]
  simp only [BitVec.getLsbD_extractLsb', BitVec.getLsbD_or, hbit, Bool.or_false]

/-! ## The record of a decoded word -/

/-- What the decoder makes is well-formed (R53 to R56). -/
theorem wellFormed_of_decode {w : Word} {i : Instr} (h : decode w = .ok i) : i.WellFormed := by
  obtain ⟨-, hi⟩ := decode_eq_ok_iff.mp h
  rw [hi]
  exact wellFormed_instrOfWord _ w

theorem decodeRecord_eq_ok_iff {w : Word} {d : Decoded} :
    decodeRecord w = .ok d ↔ ∃ i, decode w = .ok i ∧ i.record = d := by
  cases h : decode w <;> simp [decodeRecord, h, Except.map]

/-- The destination of a decoded record, where it has one, is the word's rd field (R50). -/
theorem rd_of_decodeRecord {w : Word} {d : Decoded} {rd : RegIdx} (h : decodeRecord w = .ok d) (hrd : d.rd = some rd) :
    rd = rdOf w := by
  obtain ⟨-, -, hd⟩ := decodeRecord_ok h
  rw [hd] at hrd
  cases hf : d.fmt <;> rw [hf] at hrd <;> cases hrd <;> rfl

theorem opcode_code_inj {op op' : Opcode} (h : op.code = op'.code) : op = op' :=
  Option.some.inj (by rw [← opcodeFrom_code, h, opcodeFrom_code])

end Sys2Proof

namespace Sys2Proof.Machine

/-- Settles O2: the encoded word selects the instruction's row, and the word's fields are the instruction's. -/
theorem decodeOfEncode : Obligations.DecodeOfEncode :=
  fun i h => decode_eq_ok_iff.mpr ⟨encode_selects i, (instrOfWord_encode h).symm⟩

/-- Settles O3: a decoded word is the encoding of its instruction, so decoding is injective; and every field of an encoded
offset lies above bit 0. -/
theorem encodeOfDecode : Obligations.EncodeOfDecode := by
  refine ⟨fun w i h => encode_of_decode h, fun rs1 rs2 off => ?_, fun rd off => ?_, fun w w' i h h' => ?_⟩
  · simp only [encode, encodeSB, extractLsb'_or_one, Nat.zero_lt_succ]
  · simp only [encode, encodeUJ, extractLsb'_or_one, Nat.zero_lt_succ]
  · exact (encode_of_decode h).symm.trans (encode_of_decode h')

/-- Settles O1: the decoder run on each word. -/
theorem sampleWordsDecode : Obligations.SampleWordsDecode :=
  ⟨rfl, rfl, rfl, rfl, rfl, rfl, rfl, rfl, rfl, rfl, rfl, rfl, rfl⟩

/-! ## No hints -/

/-- Every instruction under an R or I-arith opcode writes one value to its rd and goes on at pc + 4 (R85 to R92). -/
theorem exec_eq_writeAndAdvance_of_opcode {i : Instr} (h : i.record.opcode = .rType ∨ i.record.opcode = .iArith) :
    ∃ rd, i.record.rd = some rd ∧ ∀ s, ∃ v, exec i s = .next (s.writeAndAdvance rd v) := by
  cases i with
  | add rd | sub rd | and rd | or rd | slt rd | addi rd | andi rd | ori rd => exact ⟨rd, rfl, fun s => ⟨_, rfl⟩⟩
  | lw | jalr | sw | beq | jal => rcases h with h | h <;> cases h

theorem writeAndAdvance_x0 (s : State) (v : Word) :
    s.writeAndAdvance 0#5 v = { s with pc := s.pc + 4#32, count := s.count + 1 } := rfl

/-- Settles O12: the record's destination is the word's rd field, and the one write to it is discarded at x0. -/
theorem noEncodingIsHint : Obligations.NoEncodingIsHint := by
  refine ⟨fun w d hop hrd0 h => ?_, rfl⟩
  obtain ⟨hcode, hsel, -⟩ := decodeRecord_ok h
  obtain ⟨i, hd, rfl⟩ := decodeRecord_eq_ok_iff.mp h
  rw [← hcode] at hop
  obtain ⟨rd, hrd, hexec⟩ := exec_eq_writeAndAdvance_of_opcode
    (hop.imp (opcode_code_inj (op' := .rType)) (opcode_code_inj (op' := .iArith)))
  obtain rfl : rd = 0#5 := (rd_of_decodeRecord h hrd).trans hrd0
  refine ⟨i, hd, rfl, hsel, fun s => ?_⟩
  obtain ⟨v, hv⟩ := hexec s
  rw [hv, writeAndAdvance_x0]

/-! ## The datapath blocks -/

/-- The fallback of the resolver (R72). -/
theorem aluControl_FUNCT_fallback {f3 : BitVec 3} (h : f3 ∉ [0b000#3, 0b111#3, 0b110#3, 0b010#3]) (f7 : Option (BitVec 7)) :
    aluControl .FUNCT f3 f7 = .ADD := by
  simp only [List.mem_cons, List.not_mem_nil, or_false, not_or] at h
  simp [aluControl, h]

/-- Settles O15: the five R and three I-arith instructions are those of class FUNCT, each with its key in its record. -/
theorem aluControlReached : Obligations.AluControlReached := by
  refine ⟨fun f3 f7 h => aluControl_FUNCT_fallback h f7, fun _ _ _ => rfl, fun _ _ _ => rfl, fun _ _ _ => rfl,
    fun w d h hop => ?_⟩
  obtain ⟨i, -, rfl⟩ := decodeRecord_eq_ok_iff.mp h
  cases i with
  | add | sub | and | or | slt | addi | andi | ori => simp [Instr.record, recordR, recordI]
  | lw | jalr | sw | beq | jal => cases hop

/-- Settles O17: `exec_eq_datapathCycle`, on which the counter and the trace rest too. -/
theorem datapathRefinesMeanings : Obligations.DatapathRefinesMeanings := exec_eq_datapathCycle

/-- Settles O14: the table's rows, opcode by opcode; Writeback looks at LinkReg before RegWrite. -/
theorem controlTableProperties : Obligations.ControlTableProperties := by
  refine ⟨fun op => ?_, fun op => ?_, fun op => ?_, fun op => ?_, fun op => ?_, ?_, fun d rd s e hl hrd h0 => ?_⟩
  · cases op <;> simp
  · cases op <;> simp
  · cases op <;> simp
  · cases op <;> simp
  · cases op <;> simp
  · rintro op (rfl | rfl) <;> exact ⟨rfl, rfl⟩
  · simp [writebackOf, signals, hrd, hl, h0]

end Sys2Proof.Machine

/-! PROOFS. What an instruction may change (R20, R21, R83) and what it depends on (R21), and that the memory list is determined
by what its bytes read as. -/

namespace Sys2Proof.Machine

/-! ## The canonical memory list -/

/-- The cells of a canonical memory are the addresses with what they read as, where that is not the unlisted byte. -/
theorem mem_iff_readByte {m : Memory} (h : m.wf) (c : Host.Cell) :
    c ∈ m ↔ m.readByte c.1 = c.2 ∧ c.2 ≠ Config.unlistedByte := by
  obtain ⟨hsorted, hlisted⟩ := h
  induction m with
  | nil => exact ⟨nofun, fun ⟨hread, hne⟩ => absurd hread.symm hne⟩
  | cons d m ih =>
    obtain ⟨hfirst, hsorted⟩ := List.pairwise_cons.mp hsorted
    have ih := ih hsorted fun e he => hlisted e (List.mem_cons_of_mem d he)
    rw [Memory.readByte, List.mem_cons]
    split
    · next heq =>
      have hnot : c ∉ m := fun hc => absurd heq (hfirst c hc).ne
      rw [or_iff_left hnot]
      refine ⟨?_, fun hc => Prod.ext heq.symm hc.1.symm⟩
      rintro rfl
      exact ⟨rfl, hlisted c List.mem_cons_self⟩
    · next hne => rw [or_iff_right fun hc => hne (congrArg Prod.fst hc.symm), ih]

/-- Settles O37: the same reads are the same cells, and a list in strictly rising order is determined by its cells. -/
theorem canonicalMemoryUnique : Obligations.CanonicalMemoryUnique := by
  intro m m' h h' hread
  have hmem (c : Host.Cell) : c ∈ m ↔ c ∈ m' := by rw [mem_iff_readByte h, mem_iff_readByte h', hread]
  have : Std.Irrefl fun c d : Host.Cell => c.1 < d.1 := ⟨fun c => lt_irrefl c.1⟩
  have : Std.Antisymm fun c d : Host.Cell => c.1 < d.1 := ⟨fun c d hcd hdc => absurd hcd hdc.not_gt⟩
  exact h.1.eq_of_mem_iff h'.1 hmem

/-! ## What an instruction changes -/

/-- Settles O32: the four outcomes of `exec_cases` write rd only, nothing, four bytes only, and nothing. -/
theorem instructionCommitBound : Obligations.InstructionCommitBound := by
  intro i s t h
  obtain ⟨himem, hwords⟩ := exec_keeps_program h
  rcases exec_cases h with ⟨rd, v, n, hrd, hsw, -, rfl⟩ | ⟨-, -, -, n, -, -, rfl⟩ | ⟨rs2, rs1, imm, rfl, -, rfl⟩ |
    ⟨-, -, k, -, -, -, rfl, -⟩
  · have hmem : ((s.setReg rd v).retire n).mem = s.mem := by simp
    refine ⟨fun r hr => ?_, fun rs2 rs1 imm hi => ?_, fun _ => hmem, fun hne => absurd hmem hne, himem, hwords⟩
    · have hne : r ≠ rd := fun hc => hr (hc ▸ hrd)
      rw [retire_getReg, getReg_setReg, if_neg fun hc => hne hc.1]
    · subst hi
      exact absurd rfl hsw
  · exact ⟨fun _ _ => rfl, fun _ _ _ _ _ _ => rfl, fun _ => rfl, fun _ _ => rfl, himem, hwords⟩
  · refine ⟨fun _ _ => rfl, fun rs2' rs1' imm' hi a ha => ?_, fun hne => absurd rfl hne, fun _ _ => rfl, himem, hwords⟩
    cases hi
    exact readByte_writeWord_of_not_in _ _ _ _ ha
  · exact ⟨fun _ _ => rfl, fun _ _ _ _ _ _ => rfl, fun _ => rfl, fun _ _ => rfl, himem, hwords⟩

/-! ## What an instruction depends on -/

theorem setReg_withMem (s : State) (m : Memory) (r : RegIdx) (v : Word) :
    ({ s with mem := m } : State).setReg r v = { s.setReg r v with mem := m } := by
  unfold State.setReg
  split <;> rfl

/-- Settles O33: sw's checks look at MEM_WORDS only, and every other instruction reads registers and pc only. -/
theorem onlyLwReadsMemory : Obligations.OnlyLwReadsMemory := by
  intro i s m t u hlw ht hu
  cases i with
  | lw => exact absurd rfl hlw
  | sw rs2 rs1 imm =>
    cases hk : s.accessError (s.getReg rs1 + imm) with
    | none =>
      have ha := (accessError_eq_none_iff s _).mp hk
      rw [exec_sw_of_accessible ha] at ht
      rw [exec_sw_of_accessible (s := { s with mem := m }) ha] at hu
      cases ht
      cases hu
      rfl
    | some k =>
      rw [exec_of_accessError (accessesData_sw rs2 rs1 imm s) hk] at ht
      rw [exec_of_accessError (accessesData_sw rs2 rs1 imm { s with mem := m }) hk] at hu
      cases ht
      cases hu
      rfl
  | beq =>
    cases ht
    cases hu
    rfl
  | _ =>
    cases ht
    cases hu
    simp only [State.writeAndAdvance, setReg_withMem]
    rfl

end Sys2Proof.Machine

/-! PROOFS. The cycle (R81, R82): that a step always answers, what it does at a fetchable pc, and how a run ends (R100, R102). -/

namespace Sys2Proof.Machine

/-! ## A step answers -/

/-- Settles O46: the branches of a step, each with its next state. -/
theorem stepAlwaysAnswers : Obligations.StepAlwaysAnswers := by
  intro s
  by_cases hr : s.run = .running
  · cases hf : s.fetch with
    | error k => exact ⟨_, step_of_fetch_error hr hf⟩
    | exhausted => exact ⟨_, step_of_exhausted hr hf⟩
    | word w =>
      cases hd : decode w with
      | error why => exact ⟨_, step_of_decode_error hr hf hd⟩
      | ok i => exact ⟨_, (step_of_decode_ok hr hf hd).trans (exec_eq_datapathCycle i s)⟩
  · exact ⟨_, step_of_ended hr⟩

/-! ## A step at a fetchable pc -/

/-- Settles O39: fetch finds the word, and the decoded instruction is the whole step. -/
theorem stepRunsDecodedInstruction : Obligations.StepRunsDecodedInstruction := fun _ _ _ => step_of_runsNext

/-- Settles O40: fetch finds the word, and the decoder's rejection raises the error. -/
theorem decodeErrorIsFatal : Obligations.DecodeErrorIsFatal := by
  rintro s w hr hpc hw ⟨why, hd⟩
  exact ⟨_, step_of_decode_error hr (fetch_eq_word hpc hw) hd, rfl⟩

/-- Settles O48: a fetched pc is a multiple of 4 below 4 PROG_LEN, and 4 PROG_LEN is below 2^31. -/
theorem fetchedPcDoesNotWrap : Obligations.FetchedPcDoesNotWrap := by
  intro s w hlen hf
  obtain ⟨⟨halign, -⟩, hin, -⟩ := of_fetch_eq_word hf
  have hbound : s.pc.toNat + 4 < 2 ^ 31 := by
    rw [Config.maxProgLen] at hlen
    omega
  have hsum : s.pcPlus4.toNat = s.pc.toNat + 4 := BitVec.toNat_add_of_lt (hbound.trans (by decide))
  exact ⟨hsum, hsum ▸ hbound⟩

/-- A branch to itself moves the counter only (R95). -/
theorem step_self_branch {s : State} (h : RunsNext s 0x00000063#32 (.beq 0#5 0#5 0#32)) :
    step s = .next { s with count := s.count + 1 } := by
  rw [step_of_runsNext h, exec_beq_of_eq 0#32 rfl, BitVec.add_zero]
  rfl

/-- Settles O49: by induction on the number of steps; the counter is no part of what the next step looks at. -/
theorem selfBranchNeverEnds : Obligations.SelfBranchNeverEnds := by
  intro n
  induction n with
  | zero => exact fun s _ _ _ => rfl
  | succ n ih =>
    intro s hr hpc hw
    rw [run_succ_of_step (step_self_branch ⟨hr, hpc, hw, rfl⟩), ih { s with count := s.count + 1 } hr hpc hw]
    simp only [Nat.add_assoc, Nat.add_comm 1]

/-! ## The end of a run -/

/-- Fetch finds no word only at a fetchable pc at or past the end of the program (R81). -/
theorem of_fetch_eq_exhausted {s : State} (h : s.fetch = .exhausted) :
    FetchablePc s.pc ∧ 4 * s.imem.length ≤ s.pc.toNat := by
  rcases fetch_cases s with ⟨-, hf⟩ | ⟨-, -, hf⟩ | ⟨hpc, hend, hf⟩ | ⟨-, -, w, -, hf⟩ <;> rw [h] at hf <;> cases hf
  exact ⟨hpc, hend⟩

/-- An instruction leaves the run state or fails: none halts normally. -/
theorem exec_run_cases {i : Instr} {s t : State} (h : exec i s = .next t) : t.run = s.run ∨ t.run = .haltedError := by
  rcases exec_cases h with ⟨rd, v, n, -, -, -, rfl⟩ | ⟨-, -, -, n, -, -, rfl⟩ | ⟨rs2, rs1, imm, -, -, rfl⟩ |
    ⟨-, -, k, -, -, -, rfl, -⟩
  · exact .inl (by simp)
  · exact .inl rfl
  · exact .inl rfl
  · exact .inr rfl

/-- A running step ends in HALTED_NORMAL only by the program-end fetch. -/
theorem step_halts_normal {s t : State} (hr : s.run = .running) (h : step s = .next t) (ht : t.run = .haltedNormal) :
    s.fetch = .exhausted ∧ t = s.haltNormal := by
  rcases step_cases h with ⟨he, -⟩ | ⟨-, k, -, rfl⟩ | ⟨-, hf, rfl⟩ | ⟨-, w, -, -, -, rfl⟩ | ⟨-, w, i, -, -, hx⟩
  · exact absurd hr he
  · cases ht
  · exact ⟨hf, rfl⟩
  · cases ht
  · rcases exec_run_cases hx with hrun | hrun <;> simp [ht, hr] at hrun

/-- Settles O44: a step from a halted state answers it; a running step that ends the run does so by `step_halts_normal` or by a
fatal error, which is precise. -/
theorem haltedStatesAreTerminal : Obligations.HaltedStatesAreTerminal := by
  refine ⟨fun s he => step_of_ended he, fun s t hr h ht => ?_, fun s hr => hr, fun s _ => rfl, fun s => rfl⟩
  cases hrun : t.run with
  | running => exact absurd hrun ht
  | haltedNormal =>
    obtain ⟨hf, rfl⟩ := step_halts_normal hr h hrun
    exact .inl ⟨rfl, of_fetch_eq_exhausted hf⟩
  | haltedError => exact .inr (fatalErrorIsPrecise s t hr h hrun).1

end Sys2Proof.Machine

/-! PROOFS. The invariant. Each operation on the state keeps it (`State.Inv.setReg` and the lemmas after it), a step and the
host's load are made of those operations, and every next pc is even. -/

namespace Sys2Proof.Machine

/-! ## Even words -/

theorem toNat_even_iff (w : Word) : w.toNat % 2 = 0 ↔ w.getLsbD 0 = false := by
  rw [BitVec.getLsbD, Nat.testBit_zero, decide_eq_false_iff_not, Nat.mod_two_not_eq_one]

/-- The wrap modulo 2^32 keeps a sum of even words even. -/
theorem add_even {a b : Word} (ha : a.toNat % 2 = 0) (hb : b.toNat % 2 = 0) : (a + b).toNat % 2 = 0 := by
  rw [BitVec.toNat_add]
  omega

theorem clearBit0_even (x : Word) : (x &&& 0xFFFFFFFE#32).toNat % 2 = 0 := by
  rw [toNat_clearBit0]
  omega

/-- From an even pc a decoded instruction with a destination goes on at an even pc: jal's offset is even because it was decoded
(R56), and jalr clears bit 0 (R77). -/
theorem linkedNextPc_even {w : Word} {i : Instr} {s : State} {n : Word} (hd : decode w = .ok i)
    (hpc : s.pc.toNat % 2 = 0) (h : LinkedNextPc i s n) : n.toNat % 2 = 0 := by
  rcases h with rfl | ⟨rd, off, rfl, rfl⟩ | ⟨x, rfl⟩
  · exact add_even hpc (by decide)
  · exact add_even hpc ((toNat_even_iff off).mpr (offset21Fits_iff.mp (wellFormed_of_decode hd)).2)
  · exact clearBit0_even x

/-- From an even pc a decoded beq goes on at an even pc (R55). -/
theorem branchNextPc_even {w : Word} {rs1 rs2 : RegIdx} {off n : Word} {s : State}
    (hd : decode w = .ok (.beq rs1 rs2 off)) (hpc : s.pc.toNat % 2 = 0) (h : n = s.pc + off ∨ n = s.pc + 4#32) :
    n.toNat % 2 = 0 := by
  rcases h with rfl | rfl
  · exact add_even hpc ((toNat_even_iff off).mpr (offset13Fits_iff.mp (wellFormed_of_decode hd)).2)
  · exact add_even hpc (by decide)

/-! ## What each operation keeps -/

/-- The invariant's two clauses about the memory list. -/
def Memory.InBounds (m : Memory) (memWords : Nat) : Prop := m.wf ∧ ∀ c ∈ m, c.1 < 4 * memWords

/-- A word stored at an aligned address in DMEM has all its bytes there. -/
theorem writeWord_inBounds {m : Memory} {k a : Nat} (h : m.InBounds k) (halign : a % 4 = 0) (hin : a < 4 * k) (v : Word) :
    (m.writeWord a v).InBounds k := by
  obtain ⟨hwf, hrange⟩ := h
  refine ⟨writeWord_wf hwf a v, fun c hc => ?_⟩
  rcases mem_writeWord hc with hown | hold
  · omega
  · exact hrange c hold

theorem State.Inv.memInBounds {s : State} (h : s.Inv) : s.mem.InBounds s.memWords := ⟨h.memWf, h.memInRange⟩

theorem State.Inv.err_eq_none {s : State} (h : s.Inv) (hr : s.run = .running) : s.err = none :=
  Option.not_isSome_iff_eq_none.mp (mt h.errIff.mp (by simp [hr]))

theorem State.Inv.setReg {s : State} (h : s.Inv) (r : RegIdx) (v : Word) : (s.setReg r v).Inv where
  memWf := by simpa using h.memWf
  memInRange := by simpa using h.memInRange
  x0Slot := (setReg_slot0 s r v).trans h.x0Slot
  memWordsBound := by simpa using h.memWordsBound
  progLenBound := by simpa using h.progLenBound
  pcEven := by simpa using h.pcEven
  errIff := by simpa using h.errIff
  errPc := by simpa using h.errPc
  normalHalt := by simpa using h.normalHalt

theorem State.Inv.withMem {s : State} (h : s.Inv) {m : Memory} (hm : m.InBounds s.memWords) :
    ({ s with mem := m } : State).Inv :=
  { h with memWf := hm.1, memInRange := hm.2 }

/-- A running core may go on at any even pc: it has no error record to hold the old one. -/
theorem State.Inv.retire {s : State} (h : s.Inv) (hr : s.run = .running) {n : Word} (hn : n.toNat % 2 = 0) :
    (s.retire n).Inv :=
  { h with pcEven := hn, errPc := by simp [h.err_eq_none hr], normalHalt := by simp [hr] }

/-- A fatal error records the pc that it leaves in place (R99, R100). -/
theorem State.Inv.raiseError {s : State} (h : s.Inv) (k : ErrorKind) (raw : Option Word) (g : Stage) :
    (s.raiseError k raw g).Inv :=
  { h with errIff := by simp, errPc := by simp, normalHalt := by simp }

theorem State.Inv.haltNormal {s : State} (h : s.Inv) (hr : s.run = .running)
    (hend : FetchablePc s.pc ∧ 4 * s.imem.length ≤ s.pc.toNat) : s.haltNormal.Inv :=
  { h with errIff := by simp [h.err_eq_none hr], normalHalt := fun _ => hend }

/-! ## A step -/

/-- A decoded instruction of a running core keeps the invariant, in each outcome of `exec_cases`. -/
theorem exec_keeps_inv {w : Word} {i : Instr} {s t : State} (h : s.Inv) (hr : s.run = .running) (hd : decode w = .ok i)
    (hx : exec i s = .next t) : t.Inv := by
  rcases exec_cases hx with ⟨rd, v, n, -, -, hn, rfl⟩ | ⟨rs1, rs2, off, n, rfl, hn, rfl⟩ |
    ⟨rs2, rs1, imm, -, ⟨halign, hin⟩, rfl⟩ | ⟨-, -, k, -, -, -, rfl, -⟩
  · exact (h.setReg rd v).retire (by simpa using hr) (linkedNextPc_even hd h.pcEven hn)
  · exact h.retire hr (branchNextPc_even hd h.pcEven hn)
  · exact (h.withMem (writeWord_inBounds h.memInBounds halign hin _)).retire hr (add_even h.pcEven (by decide))
  · exact h.raiseError k _ .memory

/-- Settles O53: each branch of a step is one operation that keeps the invariant. -/
theorem stepKeepsInvariant : Obligations.StepKeepsInvariant := by
  intro s t h hstep
  rcases step_cases hstep with ⟨-, rfl⟩ | ⟨-, k, -, rfl⟩ | ⟨hr, hf, rfl⟩ | ⟨-, w, -, -, -, rfl⟩ | ⟨hr, w, i, -, hd, hx⟩
  · exact h
  · exact h.raiseError k none .fetch
  · exact h.haltNormal hr (of_fetch_eq_exhausted hf)
  · exact h.raiseError .decodeError (some w) .decode
  · exact exec_keeps_inv h hr hd hx

/-! ## Where a run begins -/

theorem resetWith_inv {m : Nat} (hm : m ≤ Config.maxMemWords) : (State.resetWith m).Inv where
  memWf := ⟨List.Pairwise.nil, nofun⟩
  memInRange := nofun
  x0Slot := Vector.getElem_replicate (by decide)
  memWordsBound := hm
  progLenBound := Nat.zero_le _
  pcEven := rfl
  errIff := by simp [State.resetWith]
  errPc := nofun
  normalHalt := nofun

/-- Settles O51: reset meets each clause, for every MEM_WORDS within the bound, and a host reset is one of those. -/
theorem invariantAtReset : Obligations.InvariantAtReset :=
  ⟨fun _ hm => resetWith_inv hm, resetWith_inv (by decide), fun _ h => ⟨resetWith_inv h.memWordsBound, rfl⟩⟩

theorem State.Inv.loadProgram {s : State} (h : s.Inv) (hr : s.run = .running) {prog : List Word}
    (hlen : prog.length ≤ Config.maxProgLen) : (s.loadProgram prog).Inv :=
  { h with progLenBound := hlen, normalHalt := fun hn => by simp [State.loadProgram, hr] at hn }

theorem State.Inv.applyRegisterMap {s : State} (h : s.Inv) (m : List (Nat × Int)) : (s.applyRegisterMap m).Inv :=
  List.foldlRecOn (motive := State.Inv) m _ h fun _ ht _ _ => ht.setReg _ _

theorem State.Inv.applyMemoryMap {s : State} (h : s.Inv) {m : List (Nat × Int)}
    (hm : ∀ e ∈ m, e.1 % 4 = 0 ∧ e.1 < 4 * s.memWords) : (s.applyMemoryMap m).Inv :=
  h.withMem <| List.foldlRecOn (motive := (Memory.InBounds · s.memWords)) m _ h.memInBounds fun _ ht e he =>
    writeWord_inBounds ht (hm e he).1 (hm e he).2 _

/-- Settles O52: the load's three operations keep the invariant of reset, within the bounds its checks have passed. -/
theorem invariantAfterBoot : Obligations.InvariantAfterBoot := by
  intro m prog regMap memMap s h
  obtain ⟨⟨hm, -, hlen, -, hmem⟩, rfl⟩ := boot_eq_next_iff.mp h
  have hload : ((State.resetWith m).loadProgram (prog.map (BitVec.ofNat 32))).Inv :=
    (resetWith_inv hm).loadProgram rfl (by rwa [List.length_map])
  refine (hload.applyRegisterMap regMap).applyMemoryMap fun e he => ?_
  obtain ⟨halign, hin, -⟩ := hmem e he
  rw [applyRegisterMap_memWords]
  exact ⟨halign, hin⟩

end Sys2Proof.Machine

/-! PROOFS. The host's side: the program as the load leaves it (R112, R115, R118), and the two snapshots (R111). -/

namespace Sys2Proof.Machine

/-! ## The loaded program -/

section
variable (m : Nat) (prog : List Nat) (regMap memMap : List (Nat × Int))

theorem bootedState_pc : (bootedState m prog regMap memMap).pc = 0#32 := applyRegisterMap_pc _ _

theorem bootedState_run : (bootedState m prog regMap memMap).run = .running := applyRegisterMap_run _ _

theorem bootedState_count : (bootedState m prog regMap memMap).count = 0 := applyRegisterMap_count _ _

theorem bootedState_imem : (bootedState m prog regMap memMap).imem = prog.map (BitVec.ofNat 32) :=
  applyRegisterMap_imem _ _

end

/-- Settles O56: the first fetch is at pc 0, which is at the end of the empty program. -/
theorem emptyProgramHalts : Obligations.EmptyProgramHalts := by
  intro m regMap memMap s h
  obtain ⟨-, rfl⟩ := boot_eq_next_iff.mp h
  have hpc : FetchablePc (bootedState m [] regMap memMap).pc := by
    rw [bootedState_pc]
    decide
  have hend : 4 * (bootedState m [] regMap memMap).imem.length ≤ (bootedState m [] regMap memMap).pc.toNat := by
    rw [bootedState_imem]
    exact Nat.zero_le _
  exact ⟨step_of_exhausted (bootedState_run ..) (fetch_eq_exhausted hpc hend), bootedState_count ..⟩

/-- The load checks the program's entries right after MEM_WORDS, so no other defect hides theirs (R112, log 15). -/
theorem boot_of_malformed {m : Nat} {prog : List Nat} (hm : m ≤ Config.maxMemWords) (h : ∃ w ∈ prog, 2 ^ 32 ≤ w)
    (regMap memMap : List (Nat × Int)) : boot m prog regMap memMap = .fault .malformedImmediateError := by
  obtain ⟨w, hw, hbig⟩ := h
  rw [boot, if_neg hm.not_gt, if_pos (List.any_eq_true.mpr ⟨w, hw, decide_eq_true hbig⟩)]

/-- Settles O57: `boot_of_malformed`; and a program whose entries are all words is its words. -/
theorem programLoadedWholeOrNotAtAll : Obligations.ProgramLoadedWholeOrNotAtAll := by
  refine ⟨fun m prog regMap memMap hm h => boot_of_malformed hm h regMap memMap, fun m prog regMap memMap s h => ?_⟩
  obtain ⟨⟨-, hprog, -⟩, rfl⟩ := boot_eq_next_iff.mp h
  rw [bootedState_imem]
  exact ⟨List.length_map _, map_toNat_map_ofNat hprog⟩

/-! ## Snapshots -/

/-- A list of keyed values with the zeros left out. -/
theorem mem_filterMap_nonzero {l : List Nat} {key : Nat → Nat} {val : Nat → Word} {a : Nat} {v : Word} :
    (a, v) ∈ l.filterMap (fun k => if val k = 0#32 then none else some (key k, val k)) ↔
      ∃ k ∈ l, key k = a ∧ val k = v ∧ v ≠ 0#32 := by
  rw [List.mem_filterMap]
  refine exists_congr fun k => and_congr_right fun _ => ?_
  split
  · next h0 => exact ⟨nofun, fun ⟨_, hv, hne⟩ => absurd (hv ▸ h0) hne⟩
  · next hne =>
    rw [Option.some.injEq, Prod.mk.injEq]
    exact ⟨fun ⟨ha, hv⟩ => ⟨ha, hv, hv ▸ hne⟩, fun ⟨ha, hv, _⟩ => ⟨ha, hv⟩⟩

theorem mem_registerSnapshot {s : State} {i : Nat} {v : Word} :
    (i, v) ∈ registerSnapshot s ↔ i ≤ 31 ∧ v = s.getReg (BitVec.ofNat 5 i) ∧ v ≠ 0#32 := by
  rw [registerSnapshot, mem_filterMap_nonzero (key := fun k => k)]
  constructor
  · rintro ⟨k, hk, rfl, rfl, hne⟩
    exact ⟨Nat.le_of_lt_succ (List.mem_range.mp hk), rfl, hne⟩
  · rintro ⟨hi, rfl, hne⟩
    exact ⟨i, List.mem_range.mpr (Nat.lt_succ_of_le hi), rfl, rfl, hne⟩

theorem mem_memorySnapshot {s : State} {a : Nat} {v : Word} :
    (a, v) ∈ memorySnapshot s ↔ a % 4 = 0 ∧ a < 4 * s.memWords ∧ v = s.mem.readWord a ∧ v ≠ 0#32 := by
  rw [memorySnapshot, mem_filterMap_nonzero (key := (4 * ·))]
  constructor
  · rintro ⟨k, hk, rfl, rfl, hne⟩
    rw [List.mem_range] at hk
    exact ⟨by omega, by omega, rfl, hne⟩
  · rintro ⟨halign, hin, rfl, hne⟩
    have ha : 4 * (a / 4) = a := by omega
    exact ⟨a / 4, List.mem_range.mpr (by omega), ha, congrArg s.mem.readWord ha, hne⟩

/-- Settles O58: the two snapshots are lists of keyed values with the zeros left out. -/
theorem snapshotsListNonZero : Obligations.SnapshotsListNonZero :=
  ⟨fun _ _ _ => mem_registerSnapshot, fun _ _ _ => mem_memorySnapshot⟩

end Sys2Proof.Machine
